-- ==== Sys2Proof/Word.lean ====
section
/-! DEFINITION. The words of the ports and the letter codes: 30_encoding.md R60, R63, R69; 10_state.md R35; 00_scope.md R12. -/

namespace Sys2Proof

/-- A command word `CMD[23:0]` (30_encoding.md R60). -/
abbrev Cmd := BitVec 24

/-- A response word `RSP[15:0]` (30_encoding.md R69). -/
abbrev Rsp := BitVec 16

/-- The status word `STATUS[31:0]` (10_state.md R35). -/
abbrev StatusWord := BitVec 32

/-- A 5-bit operand field as it stands in a command word; 26 to 31 are encodable and never legal (30_encoding.md R63). -/
abbrev Operand := BitVec 5

/-- A letter code or an offset: an integer in 0..25 (00_scope.md R12, 10_state.md R23, R27). -/
abbrev Sym := Fin 26

/-- A table of 26 entries indexed by a letter code (20_memory.md R41). -/
abbrev Table := Vector Sym 26

/-- All letter codes in order. -/
def allSyms : List Sym :=
  [0, 1, 2, 3, 4, 5, 6, 7, 8, 9, 10, 11, 12, 13, 14, 15, 16, 17, 18, 19, 20, 21, 22, 23, 24, 25]

/-- Entry `k` of a table. The index is a letter code, so no access is out of range (20_memory.md R42). -/
def Table.rd (t : Table) (k : Sym) : Sym := t[k.val]

/-- The table with entry `k` replaced by `v`; an entry is written whole (20_memory.md R45). -/
def Table.wr (t : Table) (k v : Sym) : Table := t.set k.val v

/-- The identity table: every letter maps to itself (10_state.md R29). -/
def Table.identity : Table :=
  #v[0, 1, 2, 3, 4, 5, 6, 7, 8, 9, 10, 11, 12, 13, 14, 15, 16, 17, 18, 19, 20, 21, 22, 23, 24, 25]

/-- The three rotor offsets `(o0, o1, o2)`, rotor 0 the fastest (10_state.md R23). -/
structure Offsets where
  o0 : Sym
  o1 : Sym
  o2 : Sym
deriving DecidableEq, Repr

end Sys2Proof
end

