-- ==== Sys2Proof/Syntax.lean ====
section
/-! DEFINITION. The commands of 30_encoding.md R64 (every row of spec/opcode_table.json) and the fault causes of
60_exceptions.md R200. -/

namespace Sys2Proof

/-- A command with its operand fields. An operand is the 5-bit field as it stands (30_encoding.md R63), so an
operand of 26 to 31 can be written down; `Instr.wf` refuses it. -/
inductive Instr where
  /-- MKROT: make the rotor stack (40_rotor_stepping.md R110). -/
  | mkrot
  /-- MKPLUG: make the identity plugboard (41_plugboard.md R121). -/
  | mkplug
  /-- ENC: encode the letter `a` (42_encode.md R150). -/
  | enc (a : Operand)
  /-- RSTOFF: reset the offsets of rotors 0, 1, 2 to `a`, `b`, `c` (40_rotor_stepping.md R111). -/
  | rstoff (a b c : Operand)
  /-- PICK: pick the letter `a`; `pending` is the caller's pending letter, field `B`, when `P` = 1
  (41_plugboard.md R122). -/
  | pick (a : Operand) (pending : Option Operand)
  /-- RDOFF: read the offsets (40_rotor_stepping.md R112). -/
  | rdoff
  /-- RDPLUG: read plugboard entry `a` (41_plugboard.md R123). -/
  | rdplug (a : Operand)
deriving DecidableEq, Repr

/-- The fault causes (60_exceptions.md R200). -/
inductive Cause where
  /-- Code 1: `OP` is 0x0 or 0x8 to 0xF. -/
  | illegalOp
  /-- Code 2: a reserved bit or an unused operand field is nonzero. -/
  | reservedNz
  /-- Code 3: a letter operand is 26 to 31. -/
  | letterRange
  /-- Code 4: a baseline offset is 26 to 31. -/
  | offsetRange
  /-- Code 5: PICK with `P` = 1 and a plugged pending letter. -/
  | plugState
deriving DecidableEq, Repr

end Sys2Proof
end

