-- ==== Sys2Proof/WellFormed.lean ====
section
/-! DEFINITION. When a command is well formed: every operand is a letter code or an offset, 0..25
(30_encoding.md R62, R63). -/

namespace Sys2Proof

/-- The operand is in 0..25. -/
def Operand.ok (a : Operand) : Bool := decide (a.toNat ≤ 25)

/-- Every operand of the command is in 0..25 (30_encoding.md R63: 26 to 31 is never legal). -/
def Instr.wf : Instr → Bool
  | .mkrot => true
  | .mkplug => true
  | .enc a => Operand.ok a
  | .rstoff a b c => Operand.ok a && Operand.ok b && Operand.ok c
  | .pick a none => Operand.ok a
  | .pick a (some c) => Operand.ok a && Operand.ok c
  | .rdoff => true
  | .rdplug a => Operand.ok a

end Sys2Proof
end

