-- ==== Sys2Proof/Decode.lean ====
section
/-! DEFINITION. Decoding a command word (30_encoding.md R61 to R67) and, after it, encoding a command. -/

namespace Sys2Proof

/-! ### The fields of a command word (30_encoding.md R61) -/

/-- `OP = CMD[23:20]`. -/
def cmdOp (w : Cmd) : BitVec 4 := w.extractLsb' 20 4

/-- `RSV = CMD[19:16]`. -/
def cmdRsv (w : Cmd) : BitVec 4 := w.extractLsb' 16 4

/-- `P = CMD[15]`. -/
def cmdP (w : Cmd) : BitVec 1 := w.extractLsb' 15 1

/-- `C = CMD[14:10]`. -/
def cmdC (w : Cmd) : Operand := w.extractLsb' 10 5

/-- `B = CMD[9:5]`. -/
def cmdB (w : Cmd) : Operand := w.extractLsb' 5 5

/-- `A = CMD[4:0]`. -/
def cmdA (w : Cmd) : Operand := w.extractLsb' 0 5

/-- The check `X > 25` of R66, negated. -/
def inRange (a : Operand) : Bool := decide (a.toNat ≤ 25)

/-! ### The checks of the four formats (30_encoding.md R62, R66), in R66's order -/

/-- Format N: no operand. -/
def decodeN (w : Cmd) (i : Instr) : Except Cause Instr :=
  if w.extractLsb' 0 16 ≠ 0 then .error .reservedNz else .ok i

/-- Format L: a letter in `A`; gives the checked field. -/
def decodeL (w : Cmd) : Except Cause Operand :=
  if w.extractLsb' 5 11 ≠ 0 then .error .reservedNz
  else if inRange (cmdA w) then .ok (cmdA w) else .error .letterRange

/-- Format T: the offsets of rotors 0, 1, 2 in `A`, `B`, `C`. -/
def decodeT (w : Cmd) : Except Cause Instr :=
  if cmdP w ≠ 0 then .error .reservedNz
  else if inRange (cmdA w) && inRange (cmdB w) && inRange (cmdC w)
    then .ok (.rstoff (cmdA w) (cmdB w) (cmdC w)) else .error .offsetRange

/-- Format S: the chosen letter in `A` and, when `P` = 1, the pending letter in `B`. -/
def decodeS (w : Cmd) : Except Cause Instr :=
  if cmdC w ≠ 0 then .error .reservedNz
  else if cmdP w = 0 ∧ cmdB w ≠ 0 then .error .reservedNz
  else if !inRange (cmdA w) then .error .letterRange
  else if cmdP w = 0 then .ok (.pick (cmdA w) none)
  else if inRange (cmdB w) then .ok (.pick (cmdA w) (some (cmdB w))) else .error .letterRange

/-- The format's checks for the command that `OP` selects (30_encoding.md R64). -/
def decodeOperands (w : Cmd) : Except Cause Instr :=
  match (cmdOp w).toNat with
  | 1 => decodeN w .mkrot
  | 2 => decodeN w .mkplug
  | 3 => (decodeL w).map .enc
  | 4 => decodeT w
  | 5 => decodeS w
  | 6 => decodeN w .rdoff
  | 7 => (decodeL w).map .rdplug
  | _ => .error .illegalOp

/-- The decode procedure of 30_encoding.md R66: the command, or the first fault that applies. Total: every word
either decodes or faults with one cause (60_exceptions.md R202). -/
def decode (w : Cmd) : Except Cause Instr :=
  if (cmdOp w).toNat = 0 ∨ 8 ≤ (cmdOp w).toNat then .error .illegalOp
  else if cmdRsv w ≠ 0 then .error .reservedNz
  else decodeOperands w

/-- The command of an instruction word of `nbits` bits whose bits are `w`; bits above `nbits` are 0. A command is one
parallel 24-bit word, so no byte order enters (20_memory.md R43; log entry 19). -/
def decodeTableWord (nbits w : Nat) : Option Instr :=
  match decode (BitVec.ofNat 24 (w % 2 ^ nbits)) with
  | .ok i => some i
  | .error _ => none

/-! ### Encoding -/

/-- The word with the given fields and `RSV` = 0 (30_encoding.md R61). -/
def encodeFields (op : BitVec 4) (p : BitVec 1) (c b a : Operand) : Cmd :=
  op ++ (0 : BitVec 4) ++ p ++ c ++ b ++ a

/-- The word of a command: its `OP` and its format (30_encoding.md R62, R64). -/
def encode : Instr → Cmd
  | .mkrot => encodeFields 1 0 0 0 0
  | .mkplug => encodeFields 2 0 0 0 0
  | .enc a => encodeFields 3 0 0 0 a
  | .rstoff a b c => encodeFields 4 0 c b a
  | .pick a none => encodeFields 5 0 0 0 a
  | .pick a (some c) => encodeFields 5 1 0 c a
  | .rdoff => encodeFields 6 0 0 0 0
  | .rdplug a => encodeFields 7 0 0 0 a

end Sys2Proof
end

