-- ==== Sys2Proof/Config.lean ====
section
/-! DEFINITION. The configuration: the parameters of 00_scope.md R10, their check R11, the fixed reflector
(10_state.md R32) and the spec's default parameter values (10_state.md R33, 92_eei_decisions.md D12 to D14). -/

namespace Sys2Proof

/-- The parameters a model takes as arguments (00_scope.md R10). They never change (10_state.md R31). -/
structure Config where
  /-- `ROTOR_WIRING[0..2]`. -/
  wiring : Vector Table 3
  /-- `ROTOR_NOTCH[0..2]`. -/
  notch : Vector Sym 3
  /-- `TEARDOWN_WHILE_PENDING` (90_conflicts.md C4). -/
  teardownWhilePending : Bool
deriving DecidableEq, Repr

/-- `W[i]`, the wiring table of rotor `i` (10_state.md R31). -/
def Config.w (c : Config) (i : Fin 3) : Table := c.wiring[i.val]

/-- `NOTCH[i]` (10_state.md R31). -/
def Config.notchOf (c : Config) (i : Fin 3) : Sym := c.notch[i.val]

/-- A table is a bijection of 0..25: every letter is the entry of some index. -/
def isBijection (t : Table) : Bool :=
  allSyms.all fun y => allSyms.any fun j => t.rd j == y

/-- A table is an involution without a fixed point (00_scope.md R11, for the reflector). -/
def isReflection (t : Table) : Bool :=
  allSyms.all fun x => t.rd (t.rd x) == x && t.rd x != x

/-- `REFL`: `yruhqsldpxngokmiebfzcwvjat` read letter by letter (10_state.md R32). -/
def reflector : Table :=
  #v[24, 17, 20, 7, 16, 18, 11, 3, 15, 23, 13, 6, 14, 10, 12, 8, 4, 1, 5, 25, 2, 22, 21, 9, 0, 19]

/-- 00_scope.md R11: each wiring is a bijection and the reflector is an involution without a fixed point (so a
bijection too). That each notch lies in 0..25 is its type here; `RawConfig.build` checks it of numbers. -/
def Config.wf (c : Config) : Bool :=
  isBijection (c.w 0) && isBijection (c.w 1) && isBijection (c.w 2) && isReflection reflector

/-- Rotor I, `ekmflgdqvzntowyhxuspaibrcj` (10_state.md R33; PRESUMED: general knowledge, log entry 1). -/
def wiringI : Table :=
  #v[4, 10, 12, 5, 11, 6, 3, 16, 21, 25, 13, 19, 14, 22, 24, 7, 23, 20, 18, 15, 0, 8, 1, 17, 2, 9]

/-- Rotor II, `ajdksiruxblhwtmcqgznpyfvoe` (10_state.md R33; PRESUMED: general knowledge, log entry 1). -/
def wiringII : Table :=
  #v[0, 9, 3, 10, 18, 8, 17, 20, 23, 1, 11, 7, 22, 19, 12, 2, 16, 6, 25, 13, 15, 24, 5, 21, 14, 4]

/-- Rotor III, `bdfhjlcprtxvznyeiwgakmusqo` (10_state.md R33; PRESUMED: general knowledge, log entry 1). -/
def wiringIII : Table :=
  #v[1, 3, 5, 7, 9, 11, 2, 15, 17, 19, 23, 21, 25, 13, 24, 4, 8, 22, 6, 0, 10, 12, 20, 18, 16, 14]

/-- The default parameters: rotors I, II, III at index 0, 1, 2, notches 16, 4, 21 (10_state.md R33, D13, D14;
PRESUMED, log entry 1), and `TEARDOWN_WHILE_PENDING` = false (D12; DESIGN CHOICE, log entry 2). -/
def Config.default : Config :=
  { wiring := #v[wiringI, wiringII, wiringIII], notch := #v[16, 4, 21], teardownWhilePending := false }

/-- A configuration as the builder of the block supplies it: plain numbers, nothing checked yet (log entry 20). -/
structure RawConfig where
  wiring : List (List Nat)
  notch : List Nat
  teardownWhilePending : Bool
deriving DecidableEq, Repr

/-- A number as a letter code, if it is one. -/
def symOfNat? (n : Nat) : Option Sym := if h : n < 26 then some ⟨n, h⟩ else none

/-- 26 numbers in 0..25 as a table. -/
def tableOfNats? (l : List Nat) : Option Table :=
  match l.mapM symOfNat? with
  | none => none
  | some ys => if h : ys.toArray.size = 26 then some ⟨ys.toArray, h⟩ else none

/-- 00_scope.md R11: the configuration is built from what is supplied, or refused (`none`) when it is not well
formed: three wirings, three notches, every number in 0..25, each wiring a bijection. -/
def RawConfig.build (r : RawConfig) : Option Config :=
  match r.wiring.mapM tableOfNats?, r.notch.mapM symOfNat? with
  | some [w0, w1, w2], some [n0, n1, n2] =>
    let c : Config :=
      { wiring := #v[w0, w1, w2], notch := #v[n0, n1, n2], teardownWhilePending := r.teardownWhilePending }
    if c.wf then some c else none
  | _, _ => none

end Sys2Proof
end

