-- ==== Sys2Proof/Machine/State.lean ====
section
/-! DEFINITION. The state of the block (10_state.md R22), its two ports to the host, the reasons a step can stop, and
the state after reset (70_reset_and_hazards.md R220). -/

namespace Sys2Proof.Machine

/-- What the host does to the block at one moment between commands (60_exceptions.md R215). Reading `STATUS` is no
event: it has no effect (30_encoding.md R71). -/
inductive HostEvent where
  /-- One 24-bit command word on the command port (30_encoding.md R60). -/
  | command (w : Cmd)
  /-- The reset input (70_reset_and_hazards.md R220). -/
  | reset
deriving DecidableEq, Repr

/-- The block: the architectural tuple `(OFF, PB, STATUS)` of 10_state.md R22, the response port, the host's coming
events, and the configuration the block was built with. -/
structure State where
  /-- The configuration parameters (00_scope.md R10). No step changes them (10_state.md R31; log entry 1). -/
  cfg : Config
  /-- `OFF[0..2]` (10_state.md R23). -/
  off : Offsets
  /-- `PB[0..25]` (10_state.md R27). -/
  pb : Table
  /-- `STATUS` (10_state.md R35). -/
  status : StatusWord
  /-- What the last command or reset left on the response port (30_encoding.md R69; log entry 9). -/
  rsp : Option Rsp
  /-- What the host will do, the next event first; it offers each one after the one before has ended (20_memory.md
  R50, 70_reset_and_hazards.md R227; log entry 7). -/
  inbox : List HostEvent
deriving DecidableEq, Repr

/-- Why the block stops. -/
inductive Fault where
  /-- Raised by `step` (never by a meaning) in the faulted state, `STATUS.FLT` = 1, when no reset is coming: the block
  executes no command and only reset leaves this state (60_exceptions.md R204; log entry 5). It carries `STATUS`, which
  the host still reads. Safe: the spec stops here too. -/
  | halted (status : StatusWord)
deriving DecidableEq, Repr

/-- Why the model gives no meaning. -/
inductive Refusal where
  /-- Raised by `exec` for a command whose meaning is not written. No arm answers it. Safe. -/
  | notModelled (mnemonic : String)
  /-- Raised by `step` on a configuration that is not well formed, and by ENC when a wiring it inverts has no unique
  inverse entry: 00_scope.md R11 refuses such a configuration (log entry 3). Safe. -/
  | malformedConfig
deriving DecidableEq, Repr

/-- The block right after reset, built with configuration `c`: offsets 0, identity plugboard, `STATUS` 0
(70_reset_and_hazards.md R220); nothing on the response port (log entry 9) and no event yet. -/
def State.powerOn (c : Config) : State :=
  { cfg := c, off := ⟨0, 0, 0⟩, pb := Table.identity, status := 0, rsp := none, inbox := [] }

/-- The machine right after reset, built with the spec's default parameters (10_state.md R33; log entries 1, 2). -/
def State.reset : State := State.powerOn Config.default

end Sys2Proof.Machine
end

