-- ==== Sys2Proof/Machine/Flags.lean ====
section
/-! DEFINITION. The block has no condition flags (10_state.md R36). This file holds what comes nearest: the notch
predicates, which live only inside one ENC (40_rotor_stepping.md R102), and the fields of `STATUS` (10_state.md R35). -/

namespace Sys2Proof.Machine

/-- `at_notch(i)` for a rotor whose offset is `o` (40_rotor_stepping.md R102). -/
def atNotch (c : Config) (i : Fin 3) (o : Sym) : Bool := o == c.notchOf i

/-- The cause codes (60_exceptions.md R200). -/
def causeCode : Cause → BitVec 4
  | .illegalOp => 1
  | .reservedNz => 2
  | .letterRange => 3
  | .offsetRange => 4
  | .plugState => 5

/-- `STATUS` after fault entry: `{CMD[23:0], cause[3:0], 0b000, 0b1}` (60_exceptions.md R203). -/
def faultStatus (c : Cause) (w : Cmd) : StatusWord := w ++ causeCode c ++ (0 : BitVec 3) ++ (1 : BitVec 1)

/-- `STATUS.FLT`, bit 0 (10_state.md R35). -/
def statusFlt (x : StatusWord) : Bool := x.getLsbD 0

/-- `STATUS.CAUSE`, bits 7:4 (10_state.md R35). -/
def statusCause (x : StatusWord) : BitVec 4 := x.extractLsb' 4 4

/-- `STATUS.FCMD`, bits 31:8 (10_state.md R35). -/
def statusFcmd (x : StatusWord) : Cmd := x.extractLsb' 8 24

end Sys2Proof.Machine
end

