-- ==== Sys2Proof/Machine/Operands.lean ====
section
/-! DEFINITION. Operands, the arithmetic of letter codes, and the layouts of the response word: 00_scope.md R14,
30_encoding.md R63, R70, 40_rotor_stepping.md R101. -/

namespace Sys2Proof.Machine

/-- An operand field as a letter code or offset; `none` for 26 to 31, which is never legal (30_encoding.md R63). -/
def symOf? (a : Operand) : Option Sym := if h : a.toNat < 26 then some ⟨a.toNat, h⟩ else none

/-- A letter code as the 5 bits of its register or field (10_state.md R23, R27). -/
def symBits (x : Sym) : BitVec 5 := BitVec.ofNat 5 x.val

/-- `add26(a, b) = (a + b) mod 26` (00_scope.md R14). -/
def add26 (a b : Sym) : Sym := ⟨(a.val + b.val) % 26, Nat.mod_lt _ (by decide)⟩

/-- `sub26(a, b) = (a − b + 26) mod 26` (00_scope.md R14). -/
def sub26 (a b : Sym) : Sym := ⟨(a.val + 26 - b.val) % 26, Nat.mod_lt _ (by decide)⟩

/-- `WINV[i][y]`: the unique `j` with `W[i][j] = y` (40_rotor_stepping.md R101); `none` where there is no unique one,
which a well-formed configuration excludes. -/
def winv? (c : Config) (i : Fin 3) (y : Sym) : Option Sym :=
  match allSyms.filter fun j => (c.w i).rd j == y with
  | [j] => some j
  | _ => none

/-- `zext_16(y)`: the response of ENC and RDPLUG (30_encoding.md R70). -/
def rspLetter (y : Sym) : Rsp := (0 : BitVec 11) ++ symBits y

/-- The response of PICK, with `NP` and `L` the selection pending after the command (30_encoding.md R70). -/
def rspSelection (sel : Option Sym) : Rsp :=
  match sel with
  | none => (0 : BitVec 10) ++ (0 : BitVec 1) ++ (0 : BitVec 5)
  | some l => (0 : BitVec 10) ++ (1 : BitVec 1) ++ symBits l

/-- The response of RDOFF: `RSP[14:10] = OFF[2]`, `RSP[9:5] = OFF[1]`, `RSP[4:0] = OFF[0]` (30_encoding.md R70). -/
def rspOffsets (o : Offsets) : Rsp := (0 : BitVec 1) ++ symBits o.o2 ++ symBits o.o1 ++ symBits o.o0

/-- The response of MKROT, MKPLUG and RSTOFF (30_encoding.md R70). -/
def rspNone : Rsp := 0x0000

end Sys2Proof.Machine
end

