-- ==== Sys2Proof/Machine/Ops.lean ====
section
/-! DEFINITION. The named operations on the state that the commands share: responding, writing the offsets and the
plugboard, taking a fault, leaving it by reset, and the ports to the host. -/

namespace Sys2Proof.Machine

/-- A command that does not fault ends by presenting one response word (30_encoding.md R69). -/
def State.respond (s : State) (r : Rsp) : State := { s with rsp := some r }

/-- `OFF[0..2] <- o`, the three writes simultaneous (40_rotor_stepping.md R104). -/
def State.setOff (s : State) (o : Offsets) : State := { s with off := o }

/-- `PB <- t`. -/
def State.setPb (s : State) (t : Table) : State := { s with pb := t }

/-- Fault entry (60_exceptions.md R203): `STATUS` records the cause and the whole command word, `OFF` and `PB` keep
their values, no response is presented. There is no vector, handler, saved program counter or mode change. -/
def State.takeFault (s : State) (c : Cause) (w : Cmd) : State :=
  { s with status := faultStatus c w, rsp := none }

/-- The block is faulted: `STATUS.FLT` = 1 (60_exceptions.md R204). -/
def State.faulted (s : State) : Bool := statusFlt s.status

/-- What the status port presents, in every state and without an effect (30_encoding.md R71; log entry 16). -/
def State.statusPort (s : State) : StatusWord := s.status

/-- Reset (70_reset_and_hazards.md R220), the only way out of the faulted state (60_exceptions.md R204, R205): the
state of `State.powerOn` for the same configuration, with `rest` the host's events after it. -/
def State.applyReset (s : State) (rest : List HostEvent) : State :=
  { State.powerOn s.cfg with inbox := rest }

/-- The host offers the event `e` before everything else it will do. -/
def State.offer (s : State) (e : HostEvent) : State := { s with inbox := e :: s.inbox }

/-- The next event has ended and is taken off. -/
def State.dropEvent (s : State) : State := { s with inbox := s.inbox.tail }

/-- The host's events after its next reset, if it has one coming. The commands before it are offered to a faulted block
and not accepted (60_exceptions.md R204; log entry 6). -/
def afterReset : List HostEvent → Option (List HostEvent)
  | [] => none
  | .reset :: rest => some rest
  | .command _ :: rest => afterReset rest

end Sys2Proof.Machine
end

