-- ==== Sys2Proof/Machine/Rotor.lean ====
section
/-! DEFINITION. The stepping function and the three commands on the offsets: 40_rotor_stepping.md R102 to R112. -/

namespace Sys2Proof.Machine

/-- `STEP(o0, o1, o2)` (40_rotor_stepping.md R103): both notch predicates are taken from the offsets before any of
them changes (R102), and the three updates are simultaneous (R104). `NOTCH[2]` is not read. -/
def stepOffsets (c : Config) (o : Offsets) : Offsets :=
  let k0 := atNotch c 0 o.o0
  let k1 := atNotch c 1 o.o1
  { o0 := add26 o.o0 1
    o1 := if k0 || k1 then add26 o.o1 1 else o.o1
    o2 := if k1 then add26 o.o2 1 else o.o2 }

/-- MKROT (40_rotor_stepping.md R110): the three offsets become 0; `PB` is left alone. -/
def execMkrot (s : State) : Host.Outcome State Fault Refusal :=
  .next ((s.setOff ⟨0, 0, 0⟩).respond rspNone)

/-- RSTOFF (40_rotor_stepping.md R111): the offsets become the baseline; `OFFSET_RANGE` if an operand is above 25 (the
decoder raises it first; log entry 10). -/
def execRstoff (a b c : Operand) (s : State) : Host.Outcome State Fault Refusal :=
  match symOf? a, symOf? b, symOf? c with
  | some o0, some o1, some o2 => .next ((s.setOff ⟨o0, o1, o2⟩).respond rspNone)
  | _, _, _ => .next (s.takeFault .offsetRange (encode (.rstoff a b c)))

/-- RDOFF (40_rotor_stepping.md R112): the three offsets in one response; no state is written. -/
def execRdoff (s : State) : Host.Outcome State Fault Refusal :=
  .next (s.respond (rspOffsets s.off))

end Sys2Proof.Machine
end

