-- ==== Sys2Proof/Machine/Encode.lean ====
section
/-! DEFINITION. The substitution function CORE, its stages, and ENC: 42_encode.md R140 to R150. -/

namespace Sys2Proof.Machine

/-- Forward through rotor `i` at offset `o`: `W[i][sub26(x, o)]`, with no offset added back (42_encode.md R144, R148). -/
def forward (c : Config) (i : Fin 3) (o x : Sym) : Sym := (c.w i).rd (sub26 x o)

/-- Backward through rotor `i` at offset `o`: `add26(WINV[i][x], o)` (42_encode.md R146). -/
def backward? (c : Config) (i : Fin 3) (o x : Sym) : Option Sym := (winv? c i x).map fun j => add26 j o

/-- The forward rotor pass: rotor 0, 1, 2 (42_encode.md R144). -/
def forwardPass (c : Config) (o : Offsets) (x : Sym) : Sym :=
  forward c 2 o.o2 (forward c 1 o.o1 (forward c 0 o.o0 x))

/-- The backward rotor pass: rotor 2, 1, 0 (42_encode.md R146). -/
def backwardPass? (c : Config) (o : Offsets) (x : Sym) : Option Sym :=
  match backward? c 2 o.o2 x with
  | none => none
  | some x2 =>
    match backward? c 1 o.o1 x2 with
    | none => none
    | some x1 => backward? c 0 o.o0 x1

/-- `CORE(x, o, pb)` (42_encode.md R141): plugboard in, forward, reflector, backward, plugboard out. It has a value for
every well-formed configuration; `none` where a wiring has no inverse entry. -/
def core? (c : Config) (o : Offsets) (pb : Table) (x : Sym) : Option Sym :=
  (backwardPass? c o (reflector.rd (forwardPass c o (pb.rd x)))).map fun y => pb.rd y

/-- ENC (42_encode.md R150): the rotors step first (R142), then CORE runs with the new offsets; `PB` is only read.
`LETTER_RANGE` if the operand is above 25 (the decoder raises it first; log entry 10). A configuration that is not
well formed is refused where a wiring cannot be inverted (log entry 3). -/
def execEnc (a : Operand) (s : State) : Host.Outcome State Fault Refusal :=
  match symOf? a with
  | none => .next (s.takeFault .letterRange (encode (.enc a)))
  | some x =>
    match core? s.cfg (stepOffsets s.cfg s.off) s.pb x with
    | some y => .next ((s.setOff (stepOffsets s.cfg s.off)).respond (rspLetter y))
    | none => .refused .malformedConfig

end Sys2Proof.Machine
end

