-- ==== Sys2Proof/Machine/Plugboard.lean ====
section
/-! DEFINITION. The three commands on the plugboard: 41_plugboard.md R121 to R123. -/

namespace Sys2Proof.Machine

/-- The pair of the plugged letter `a` is torn down: `d <- PB[a]; PB[a] <- a; PB[d] <- d` (41_plugboard.md R122,
cases 2 and 4b). -/
def tearDown (pb : Table) (a : Sym) : Table := (pb.wr a a).wr (pb.rd a) (pb.rd a)

/-- The pair of `c` and `a` is created: `PB[c] <- a; PB[a] <- c` (41_plugboard.md R122, case 3). -/
def connect (pb : Table) (c a : Sym) : Table := (pb.wr c a).wr a c

/-- One pick of letter `a` with the caller's pending letter (41_plugboard.md R122): the new plugboard and the
selection pending after it, or `PLUG_STATE` when the pending letter is plugged. -/
def pickStep (teardownWhilePending : Bool) (pb : Table) (a : Sym) (pending : Option Sym) :
    Except Cause (Table × Option Sym) :=
  match pending with
  | none =>
    if pb.rd a = a then .ok (pb, some a)                                  -- case 1
    else .ok (tearDown pb a, none)                                        -- case 2
  | some c =>
    if pb.rd c ≠ c then .error .plugState
    else if a = c then .ok (pb, some c)                                   -- case 4a
    else if pb.rd a = a then .ok (connect pb c a, none)                   -- case 3
    else .ok (if teardownWhilePending then tearDown pb a else pb, some c) -- case 4b

/-- MKPLUG (41_plugboard.md R121): every letter unplugged; `OFF` is left alone. -/
def execMkplug (s : State) : Host.Outcome State Fault Refusal :=
  .next ((s.setPb Table.identity).respond rspNone)

/-- What PICK does once its operands are letters: the outcome of `pickStep`, written and presented, or the fault it
raises for the word `w` (41_plugboard.md R122). -/
def pickLetters (w : Cmd) (a : Sym) (pending : Option Sym) (s : State) : Host.Outcome State Fault Refusal :=
  match pickStep s.cfg.teardownWhilePending s.pb a pending with
  | .ok (t, sel) => .next ((s.setPb t).respond (rspSelection sel))
  | .error c => .next (s.takeFault c w)

/-- PICK (41_plugboard.md R122): `LETTER_RANGE` if an operand is above 25 (the decoder raises it first; log entry 10),
else one pick. -/
def execPick (a : Operand) (pending : Option Operand) (s : State) : Host.Outcome State Fault Refusal :=
  match symOf? a, pending with
  | some x, none => pickLetters (encode (.pick a none)) x none s
  | some x, some c =>
    match symOf? c with
    | some y => pickLetters (encode (.pick a (some c))) x (some y) s
    | none => .next (s.takeFault .letterRange (encode (.pick a (some c))))
  | none, p => .next (s.takeFault .letterRange (encode (.pick a p)))

/-- RDPLUG (41_plugboard.md R123): one plugboard entry; no state is written. `LETTER_RANGE` if the operand is above 25
(the decoder raises it first; log entry 10). -/
def execRdplug (a : Operand) (s : State) : Host.Outcome State Fault Refusal :=
  match symOf? a with
  | some k => .next (s.respond (rspLetter (s.pb.rd k)))
  | none => .next (s.takeFault .letterRange (encode (.rdplug a)))

end Sys2Proof.Machine
end

