-- ==== Sys2Proof/Machine/Dispatch.lean ====
section
/-! DEFINITION. One arm per command (30_encoding.md R64). -/

namespace Sys2Proof.Machine

def exec (i : Instr) (s : State) : Host.Outcome State Fault Refusal :=
  match i with
  | .mkrot => Sys2Proof.Machine.execMkrot s
  | .mkplug => Sys2Proof.Machine.execMkplug s
  | .enc a => Sys2Proof.Machine.execEnc a s
  | .rstoff a b c => Sys2Proof.Machine.execRstoff a b c s
  | .pick a pending => Sys2Proof.Machine.execPick a pending s
  | .rdoff => Sys2Proof.Machine.execRdoff s
  | .rdplug a => Sys2Proof.Machine.execRdplug a s

end Sys2Proof.Machine
end

