-- ==== Sys2Proof/Machine/Command.lean ====
section
/-! DEFINITION. One transaction of the command port and what a block does next: 30_encoding.md R60, R66;
60_exceptions.md R203, R204; 70_reset_and_hazards.md R220. -/

namespace Sys2Proof.Machine

/-- Decode the word; execute it, or take the fault the decoder raises (30_encoding.md R66, 60_exceptions.md R203). -/
def runCommand (w : Cmd) (s : State) : Host.Outcome State Fault Refusal :=
  match decode w with
  | .ok i => exec i s
  | .error c => .next (s.takeFault c w)

/-- A block that is not faulted takes the host's next event. With none it holds its state unchanged (60_exceptions.md
R214, 70_reset_and_hazards.md R220; log entry 8). -/
def takeEvent (s : State) : Host.Outcome State Fault Refusal :=
  match s.inbox with
  | [] => .next s
  | .reset :: rest => .next (s.applyReset rest)
  | .command w :: _ => runCommand w s.dropEvent

/-- A faulted block executes no command and only reset leaves this state (60_exceptions.md R204): the host's next
reset, or the fault outcome when none is coming (log entries 5, 6). -/
def awaitReset (s : State) : Host.Outcome State Fault Refusal :=
  match afterReset s.inbox with
  | some rest => .next (s.applyReset rest)
  | none => .fault (.halted s.status)

/-- One step of the block: a configuration that is not well formed is refused (00_scope.md R11; log entry 3). -/
def advance (s : State) : Host.Outcome State Fault Refusal :=
  if s.cfg.wf then
    if s.faulted then awaitReset s else takeEvent s
  else .refused .malformedConfig

end Sys2Proof.Machine
end

