-- ==== Sys2Proof/Machine/Step.lean ====
section
/-! DEFINITION. The step of the machine, and how one instruction word is placed so that the next step runs it. -/

namespace Sys2Proof.Machine

/-- One step: each command, and each reset, is exactly one step (70_reset_and_hazards.md R229, 20_memory.md R46). -/
def step (s : State) : Host.Outcome State Fault Refusal := advance s

/-- The block fetches nothing: the host offers it a command word (10_state.md R21). The word whose bits are `w` (bits
above `nbits` are 0) is what the host offers next, before all else it will do (log entries 13, 19). -/
def State.withFetchWord (s : State) (nbits w : Nat) : State :=
  s.offer (.command (BitVec.ofNat 24 (w % 2 ^ nbits)))

end Sys2Proof.Machine
end

