-- ==== Sys2Proof/Machine/Assembler.lean ====
section
/-! DEFINITION. The assembler text and its pseudo-instructions: 30_encoding.md R72 to R74. Text is a list of
characters; log entry 14 says how blanks, blank lines and leading zeros are read. -/

namespace Sys2Proof.Machine

/-- What one line of assembler text says: a command (30_encoding.md R72) or a pseudo-instruction (R74). Operands are
letter codes or offsets: the assembler refuses any other (R73). -/
inductive AsmLine where
  | mkrot
  | mkplug
  | enc (x : Sym)
  | rstoff (o0 o1 o2 : Sym)
  | pick (chosen : Sym) (pending : Option Sym)
  | rdoff
  | rdplug (k : Sym)
  | init
  | rewind (o0 o1 o2 : Sym)
  | encs (letters : List Sym)
  | plug (x y : Sym)
  | unplug (x : Sym)
deriving DecidableEq, Repr

/-- The commands of a line, in order (30_encoding.md R72, R74). -/
def AsmLine.expand : AsmLine → List Instr
  | .mkrot => [.mkrot]
  | .mkplug => [.mkplug]
  | .enc x => [.enc (symBits x)]
  | .rstoff o0 o1 o2 => [.rstoff (symBits o0) (symBits o1) (symBits o2)]
  | .pick a p => [.pick (symBits a) (p.map symBits)]
  | .rdoff => [.rdoff]
  | .rdplug k => [.rdplug (symBits k)]
  | .init => [.mkrot, .mkplug]
  | .rewind o0 o1 o2 => [.rstoff (symBits o0) (symBits o1) (symBits o2)]
  | .encs ls => ls.map fun x => .enc (symBits x)
  | .plug x y => [.pick (symBits x) none, .pick (symBits y) (some (symBits x))]
  | .unplug x => [.pick (symBits x) none]

/-! ### Reading text -/

/-- A blank inside a line. -/
def isBlank (c : Char) : Bool := c == ' ' || c == '\t' || c == '\r'

/-- The text without the blanks at its two ends. -/
def trimBlanks (l : List Char) : List Char :=
  ((l.dropWhile isBlank).reverse.dropWhile isBlank).reverse

/-- The text cut at every `sep`. -/
def cutAt (sep : Char) : List Char → List (List Char)
  | [] => [[]]
  | c :: l =>
    if c = sep then [] :: cutAt sep l
    else
      match cutAt sep l with
      | [] => [[c]]
      | p :: ps => (c :: p) :: ps

/-- The code of a lowercase letter `a` to `z` (00_scope.md R12). -/
def codeOfChar? (c : Char) : Option Sym := if 97 ≤ c.toNat then symOfNat? (c.toNat - 97) else none

/-- The value of a decimal digit. -/
def digit? (c : Char) : Option Nat := if 48 ≤ c.toNat ∧ c.toNat ≤ 57 then some (c.toNat - 48) else none

/-- A decimal number 0 to 25. -/
def decimal? (l : List Char) : Option Sym :=
  match l.mapM digit? with
  | some (d :: ds) => symOfNat? ((d :: ds).foldl (fun n d => 10 * n + d) 0)
  | _ => none

/-- A `<letter>`: a lowercase letter, or `#` and a decimal number 0 to 25 (30_encoding.md R73). -/
def letter? (l : List Char) : Option Sym :=
  match l with
  | [c] => codeOfChar? c
  | '#' :: ds => decimal? ds
  | _ => none

/-- An `<off>`: a decimal number 0 to 25, or a lowercase letter (30_encoding.md R73). -/
def off? (l : List Char) : Option Sym :=
  match decimal? l, l with
  | some o, _ => some o
  | none, [c] => codeOfChar? c
  | none, _ => none

/-- The letters between the quotes of `ENCS "<letters>"` (30_encoding.md R74). -/
def quoted? (l : List Char) : Option (List Sym) :=
  match l, l.getLast? with
  | '"' :: c :: cs, some '"' => (c :: cs).dropLast.mapM codeOfChar?
  | _, _ => none

/-- The operands of a line, separated by commas; no text is no operand. -/
def operandsOf (l : List Char) : List (List Char) :=
  if trimBlanks l = [] then [] else (cutAt ',' l).map trimBlanks

/-- The line of a mnemonic with its operand text (30_encoding.md R72, R74); `none` where the assembler refuses it. -/
def lineOf? (mnemonic rest : List Char) : Option AsmLine :=
  match mnemonic, operandsOf rest with
  | ['M', 'K', 'R', 'O', 'T'], [] => some .mkrot
  | ['M', 'K', 'P', 'L', 'U', 'G'], [] => some .mkplug
  | ['E', 'N', 'C'], [x] => (letter? x).map .enc
  | ['R', 'S', 'T', 'O', 'F', 'F'], [a, b, c] =>
    match off? a, off? b, off? c with
    | some a, some b, some c => some (.rstoff a b c)
    | _, _, _ => none
  | ['P', 'I', 'C', 'K'], [x] => (letter? x).map fun a => .pick a none
  | ['P', 'I', 'C', 'K'], [x, y] =>
    match letter? x, letter? y with
    | some a, some c => some (.pick a (some c))
    | _, _ => none
  | ['R', 'D', 'O', 'F', 'F'], [] => some .rdoff
  | ['R', 'D', 'P', 'L', 'U', 'G'], [x] => (letter? x).map .rdplug
  | ['I', 'N', 'I', 'T'], [] => some .init
  | ['R', 'E', 'W', 'I', 'N', 'D'], [a, b, c] =>
    match off? a, off? b, off? c with
    | some a, some b, some c => some (.rewind a b c)
    | _, _, _ => none
  | ['E', 'N', 'C', 'S'], [x] => (quoted? x).map .encs
  | ['P', 'L', 'U', 'G'], [x, y] =>
    match letter? x, letter? y with
    | some a, some b => some (.plug a b)
    | _, _ => none
  | ['U', 'N', 'P', 'L', 'U', 'G'], [x] => (letter? x).map .unplug
  | _, _ => none

/-- One line of text without its comment: no command when it is blank, else the commands it expands to
(30_encoding.md R72, R74). -/
def assembleLine (l : List Char) : Option (List Instr) :=
  match trimBlanks (l.takeWhile (· != ';')) with
  | [] => some []
  | t => (lineOf? (t.takeWhile fun c => !isBlank c) (t.dropWhile fun c => !isBlank c)).map AsmLine.expand

/-- The commands of a whole text, or a refusal when a line is refused. -/
def assembleInstrs (text : List Char) : Option (List Instr) :=
  ((cutAt '\n' text).mapM assembleLine).map List.flatten

/-- The command words of a whole text (30_encoding.md R72 to R74). -/
def assemble (text : List Char) : Option (List Cmd) := (assembleInstrs text).map fun is => is.map encode

end Sys2Proof.Machine
end

