-- ==== Sys2Proof/Safety.lean ====
section
/-! DEFINITION. What claims are stated in: legal states (10_state.md R28, R35; 00_scope.md R11), a sequence of commands
with its responses, and a well-behaved host (60_exceptions.md R206, R215; 41_plugboard.md R125). -/

namespace Sys2Proof.Machine

/-- The table is an involution: `PB[PB[k]] = k` for every `k` (10_state.md R28). -/
abbrev Involutive (t : Table) : Prop := ∀ k : Sym, t.rd (t.rd k) = k

/-- The word `w` can raise the fault `c`: at decode, or `PLUG_STATE` at execution for a PICK with a pending letter
(60_exceptions.md R200, R201). -/
def raises (c : Cause) (w : Cmd) : Prop :=
  decode w = .error c ∨ (c = .plugState ∧ ∃ a p, decode w = .ok (.pick a (some p)))

/-- `STATUS` is 0, or what fault entry writes for a word that raises that fault (10_state.md R35, 60_exceptions.md
R201, R203). -/
def statusLegal (x : StatusWord) : Prop := x = 0 ∨ ∃ c w, raises c w ∧ x = faultStatus c w

/-- The invariant of the block: a well-formed configuration (00_scope.md R11), an involutive plugboard (10_state.md
R28), a legal `STATUS` (R35). That the offsets and entries lie in 0..25 (R26, R27) is their type. -/
structure State.Legal (s : State) : Prop where
  cfg_wf : s.cfg.wf = true
  pb_involutive : Involutive s.pb
  status_legal : statusLegal s.status

/-- The state of an outcome that has one. -/
def nextState? (o : Host.Outcome State Fault Refusal) : Option State :=
  match o with
  | .next s => some s
  | .fault _ => none
  | .refused _ => none

/-- The responses of commands executed one after another, and the state after them; `none` when one of them stops or
presents no response. -/
def transcript : List Instr → State → Option (List Rsp × State)
  | [], s => some ([], s)
  | i :: is, s =>
    match exec i s with
    | .next t =>
      match t.rsp, transcript is t with
      | some r, some (rs, u) => some (r :: rs, u)
      | _, _ => none
    | .fault _ => none
    | .refused _ => none

/-- The commands that encode a message, letter by letter (30_encoding.md R74, ENCS). -/
def encMessage (xs : List Sym) : List Instr := xs.map fun x => .enc (symBits x)

/-! ### A host that sends what an assembler accepts and passes back PICK's own result -/

/-- The block and the selection its host holds pending (10_state.md R38). -/
structure Session where
  block : State
  sel : Option Sym
deriving DecidableEq, Repr

/-- What a well-behaved host does next: a reset, or a command with legal operands (60_exceptions.md R206). A pick names
the chosen letter only: the pending letter is the one the host holds. -/
inductive HostAct where
  | reset
  | mkrot
  | mkplug
  | enc (x : Sym)
  | rstoff (o0 o1 o2 : Sym)
  | pick (a : Sym)
  | rdoff
  | rdplug (k : Sym)
deriving DecidableEq, Repr

/-- The event of an act; PICK carries `P` = `NP` and `B` = `L` of the selection held (41_plugboard.md R125). -/
def HostAct.event (sel : Option Sym) : HostAct → HostEvent
  | .reset => .reset
  | .mkrot => .command (encode .mkrot)
  | .mkplug => .command (encode .mkplug)
  | .enc x => .command (encode (.enc (symBits x)))
  | .rstoff o0 o1 o2 => .command (encode (.rstoff (symBits o0) (symBits o1) (symBits o2)))
  | .pick a => .command (encode (.pick (symBits a) (sel.map symBits)))
  | .rdoff => .command (encode .rdoff)
  | .rdplug k => .command (encode (.rdplug (symBits k)))

/-- The selection in a PICK response: `NP` in bit 5, `L` in bits 4:0 (30_encoding.md R70). -/
def selectionOf (r : Rsp) : Option Sym := if r.getLsbD 5 then symOf? (r.extractLsb' 0 5) else none

/-- The selection the host holds after an act: what PICK returned; none after a reset (70_reset_and_hazards.md R223
item 3; log entry 18); unchanged after any other act. -/
def HostAct.selAfter (sel : Option Sym) (r : Option Rsp) : HostAct → Option Sym
  | .pick _ => r.bind selectionOf
  | .reset => none
  | .mkrot | .mkplug | .enc _ | .rstoff _ _ _ | .rdoff | .rdplug _ => sel

/-- One act: the host offers the event and the block takes one step. -/
def Session.act (h : Session) (a : HostAct) : Host.Outcome Session Fault Refusal :=
  match step (h.block.offer (a.event h.sel)) with
  | .next s => .next ⟨s, a.selAfter h.sel s.rsp⟩
  | .fault f => .fault f
  | .refused r => .refused r

/-- Acts one after another. -/
def Session.run (h : Session) : List HostAct → Host.Outcome Session Fault Refusal
  | [] => .next h
  | a :: as =>
    match h.act a with
    | .next h' => h'.run as
    | .fault f => .fault f
    | .refused r => .refused r

/-- A session in good order: a legal block that is not faulted, and a pending letter that is unplugged. -/
structure Session.Ok (h : Session) : Prop where
  legal : h.block.Legal
  not_faulted : h.block.faulted = false
  sel_unplugged : ∀ c, h.sel = some c → h.block.pb.rd c = c

end Sys2Proof.Machine
end

