-- ==== Sys2Proof/Certificates/Slice0/Obligations.lean ====
section
/-! DEFINITION. The statements for the provers. Each docstring names the rule of spec/ it formalises. A word's fields
are written here by division, as numbers, beside the decoder's bit fields. -/

open Sys2Proof Sys2Proof.Machine

/-! ### Encoding and decoding -/

/-- Decoding the word of a well-formed command gives the command back, whatever its operands (30_encoding.md R62, R66). -/
def Obligations.DecodeOfEncodeIsInstr : Prop :=
  ∀ i : Instr, i.wf = true → decode (encode i) = .ok i

/-- A word that decodes is the encoding of a well-formed command: no bit of it is ignored (30_encoding.md R67). -/
def Obligations.EncodeOfDecodeIsWord : Prop :=
  ∀ (w : Cmd) (i : Instr), decode w = .ok i → i.wf = true ∧ encode i = w

/-- 30_encoding.md R66: which fault each word raises, the first check that applies winning; which command, with which
operands, every other word is; and that a block not faulted executes exactly the words that pass every check, and for any
other word records in `STATUS` the word, the number of the fault (60_exceptions.md R200) and `FLT`. -/
def Obligations.DecodeChecksInOrder : Prop :=
  ∀ w : Cmd,
    let op := w.toNat / 1048576
    let rsv := w.toNat / 65536 % 16
    let p := w.toNat / 32768 % 2
    let c := w.toNat / 1024 % 32
    let b := w.toNat / 32 % 32
    let a := w.toNat % 32
    let formN := op = 1 ∨ op = 2 ∨ op = 6
    let formL := op = 3 ∨ op = 7
    let resvd := rsv ≠ 0 ∨ (formN ∧ w.toNat % 65536 ≠ 0) ∨ (formL ∧ w.toNat % 65536 / 32 ≠ 0) ∨
      (op = 4 ∧ p ≠ 0) ∨ (op = 5 ∧ (c ≠ 0 ∨ (p = 0 ∧ b ≠ 0)))
    (decode w = .error .illegalOp ↔ op = 0 ∨ 8 ≤ op) ∧
    (decode w = .error .reservedNz ↔ 1 ≤ op ∧ op ≤ 7 ∧ resvd) ∧
    (decode w = .error .letterRange ↔
      ¬resvd ∧ ((formL ∧ 25 < a) ∨ (op = 5 ∧ (25 < a ∨ (p = 1 ∧ 25 < b))))) ∧
    (decode w = .error .offsetRange ↔ ¬resvd ∧ op = 4 ∧ (25 < a ∨ 25 < b ∨ 25 < c)) ∧
    decode w ≠ .error .plugState ∧
    (∀ i : Instr, decode w = .ok i ↔ ¬resvd ∧ match i with
      | .mkrot => op = 1
      | .mkplug => op = 2
      | .enc x => op = 3 ∧ x.toNat = a ∧ a ≤ 25
      | .rstoff x y z => op = 4 ∧ x.toNat = a ∧ y.toNat = b ∧ z.toNat = c ∧ a ≤ 25 ∧ b ≤ 25 ∧ c ≤ 25
      | .pick x none => op = 5 ∧ p = 0 ∧ x.toNat = a ∧ a ≤ 25
      | .pick x (some y) => op = 5 ∧ p = 1 ∧ x.toNat = a ∧ y.toNat = b ∧ a ≤ 25 ∧ b ≤ 25
      | .rdoff => op = 6
      | .rdplug x => op = 7 ∧ x.toNat = a ∧ a ≤ 25) ∧
    ∀ (s : State) (rest : List HostEvent), s.cfg.wf = true → s.faulted = false → s.inbox = .command w :: rest →
      (∀ e : Cause, decode w = .error e → ∃ q : StatusWord,
        step s = .next { s with inbox := rest, status := q, rsp := none } ∧
        q.toNat = 256 * w.toNat + 16 * (match e with
          | .illegalOp => 1 | .reservedNz => 2 | .letterRange => 3 | .offsetRange => 4 | .plugState => 5) + 1) ∧
      ∀ i : Instr, decode w = .ok i → step s = exec i { s with inbox := rest }

/-- 30_encoding.md R67: every word whose `OP` is 0x0 or 0x8 to 0xF is illegal, the all-zero and the all-ones word among
them, and every other word with a nonzero reserved bit or unused field faults. -/
def Obligations.IllegalOpcodesFault : Prop :=
  decode 0x000000 = .error .illegalOp ∧ decode 0xFFFFFF = .error .illegalOp ∧
  (∀ w : Cmd, (w.toNat / 1048576 = 0 ∨ 8 ≤ w.toNat / 1048576) → decode w = .error .illegalOp) ∧
  ∀ (w : Cmd) (i : Instr), decode w = .ok i →
    w.toNat / 65536 % 16 = 0 ∧ match i with
      | .mkrot | .mkplug | .rdoff => w.toNat % 65536 = 0
      | .enc _ | .rdplug _ => w.toNat % 65536 / 32 = 0
      | .rstoff _ _ _ => w.toNat / 32768 % 2 = 0
      | .pick _ none => w.toNat % 65536 / 32 = 0
      | .pick _ (some _) => w.toNat / 1024 % 64 = 32

/-- The word of each command as the command rules give it: `OP` in 23:20 and the operands in their fields
(30_encoding.md R61, R62, R64). -/
def Obligations.WordOfEachCommand : Prop :=
  (encode .mkrot).toNat = 0x100000 ∧ (encode .mkplug).toNat = 0x200000 ∧ (encode .rdoff).toNat = 0x600000 ∧
  ∀ a b c : Operand,
    (encode (.enc a)).toNat = 0x300000 + a.toNat ∧
    (encode (.rdplug a)).toNat = 0x700000 + a.toNat ∧
    (encode (.rstoff a b c)).toNat = 0x400000 + 1024 * c.toNat + 32 * b.toNat + a.toNat ∧
    (encode (.pick a none)).toNat = 0x500000 + a.toNat ∧
    (encode (.pick a (some b))).toNat = 0x508000 + 32 * b.toNat + a.toNat

/-- Words written out from 95_test_vectors.md V-P, V-R and V-D (section 2) and P5 (section 3): one or more of each command
and of each fault the decoder raises. `PLUG_STATE` is raised by a command that executes (60_exceptions.md R201), so the word
of V-P that raises it decodes to that PICK. -/
def Obligations.SampleWordsDecode : Prop :=
  decode 0x100000 = .ok .mkrot ∧ decode 0x200000 = .ok .mkplug ∧ decode 0x300007 = .ok (.enc 7) ∧
  decode 0x4000F9 = .ok (.rstoff 25 7 0) ∧ decode 0x406739 = .ok (.rstoff 25 25 25) ∧
  decode 0x500002 = .ok (.pick 2 none) ∧ decode 0x508319 = .ok (.pick 25 (some 24)) ∧
  decode 0x508003 = .ok (.pick 3 (some 0)) ∧
  decode 0x600000 = .ok .rdoff ∧ decode 0x700019 = .ok (.rdplug 25) ∧
  decode 0x000000 = .error .illegalOp ∧ decode 0x800000 = .error .illegalOp ∧
  decode 0xF00000 = .error .illegalOp ∧ decode 0xFFFFFF = .error .illegalOp ∧
  decode 0x110000 = .error .reservedNz ∧ decode 0x500020 = .error .reservedNz ∧
  decode 0x3F001F = .error .reservedNz ∧ decode 0x5083A0 = .error .letterRange ∧
  decode 0x4068DA = .error .offsetRange

/-! ### The step -/

/-- A block that is not faulted runs the command its next word decodes to: the step is `exec` of it, the event taken
off (30_encoding.md R66). -/
def Obligations.StepRunsDecodedCommand : Prop :=
  ∀ (s : State) (w : Cmd) (rest : List HostEvent) (i : Instr),
    s.cfg.wf = true → s.faulted = false → s.inbox = .command w :: rest → decode w = .ok i →
      step s = exec i { s with inbox := rest }

/-- A word that a check of the decoder turns away is one step: `STATUS` records the word and the cause code of
60_exceptions.md R200, `OFF` and `PB` stay, no response is presented (R201, R203). -/
def Obligations.StepTakesDecodeFault : Prop :=
  ∀ (s : State) (w : Cmd) (rest : List HostEvent) (c : Cause),
    s.cfg.wf = true → s.faulted = false → s.inbox = .command w :: rest → decode w = .error c →
      ∃ x : StatusWord, step s = .next { s with inbox := rest, status := x, rsp := none } ∧
        x.toNat = 256 * w.toNat + 16 * (match c with
          | .illegalOp => 1 | .reservedNz => 2 | .letterRange => 3 | .offsetRange => 4 | .plugState => 5) + 1

/-- A meaning and the decoder agree on operands the decoder turns away: executing such a command takes the fault its
word raises (the model's choice, log entry 10). So a step on the word of ANY command, well formed or not, is `exec` of
it. -/
def Obligations.StepOnAnyEncodedCommand : Prop :=
  ∀ (s : State) (i : Instr) (rest : List HostEvent),
    s.cfg.wf = true → s.faulted = false →
      step { s with inbox := .command (encode i) :: rest } = exec i { s with inbox := rest }

/-- 60_exceptions.md R204: in the faulted state no command executes and only reset leaves it. Whatever commands the
host offers, a faulted block has no next state but the reset one, and none while no reset is coming. Three clauses are the
model's choice, no rule of the spec: the outcome `halted` while no reset is coming (log entry 5, DEDUCED), that commands
offered before the reset are dropped (log entry 6, DESIGN CHOICE), and that the response port presents nothing after a reset
(log entry 9, DESIGN CHOICE). -/
def Obligations.FaultedBlockLeavesOnlyByReset : Prop :=
  ∀ s : State, s.cfg.wf = true → s.faulted = true →
    (HostEvent.reset ∉ s.inbox → step s = .fault (.halted s.status)) ∧
    ∀ t : State, step s = .next t →
      ∃ offered rest, s.inbox = offered ++ HostEvent.reset :: rest ∧ HostEvent.reset ∉ offered ∧
        t = { State.powerOn s.cfg with inbox := rest }

/-- 70_reset_and_hazards.md R220: the reset event gives offsets 0, the identity plugboard and `STATUS` 0, and leaves
the configuration; faulted or not, it is one step, and the host's later events stay. -/
def Obligations.ResetEventEffect : Prop :=
  ∀ (s : State) (rest : List HostEvent), s.cfg.wf = true → s.inbox = .reset :: rest →
    ∃ t : State, step s = .next t ∧ t.off = ⟨0, 0, 0⟩ ∧ (∀ k : Sym, t.pb.rd k = k) ∧ t.status = 0 ∧
      t.cfg = s.cfg ∧ t.inbox = rest ∧ t.faulted = false

/-- 10_state.md R39: the reset values, of the state the machine starts in and of the state after a reset event; the
constant tables are not affected. -/
def Obligations.ResetStateValues : Prop :=
  (State.reset.off = ⟨0, 0, 0⟩ ∧ (∀ k : Sym, State.reset.pb.rd k = k) ∧ State.reset.status = 0) ∧
  ∀ (s : State) (rest : List HostEvent),
    (s.applyReset rest).off = ⟨0, 0, 0⟩ ∧ (∀ k : Sym, (s.applyReset rest).pb.rd k = k) ∧
      (s.applyReset rest).status = 0 ∧ (s.applyReset rest).cfg = s.cfg

/-- With nothing sent, a block that is not faulted holds its state (60_exceptions.md R214; that this is a step that
changes nothing is the model's choice, log entry 8). -/
def Obligations.NothingSentNothingChanges : Prop :=
  ∀ s : State, s.cfg.wf = true → s.faulted = false → s.inbox = [] → step s = .next s

/-- 70_reset_and_hazards.md R229: every command that the block accepts ends in one step, and the one stuck state is the
faulted one: a legal block that is not faulted always has a next state. -/
def Obligations.EveryAcceptedCommandEnds : Prop :=
  ∀ s : State, s.Legal → s.faulted = false → ∃ t : State, step s = .next t

/-! ### Configuration -/

/-- 00_scope.md R11: a configuration is built exactly when it has three wirings, each with every letter 0..25 once, and
three notches in 0..25; the reflector, which is fixed, is a bijection and an involution without a fixed point. -/
def Obligations.BuildAcceptsExactlyWellFormed : Prop :=
  (∀ r : RawConfig, r.build.isSome = true ↔
    r.wiring.length = 3 ∧ (∀ l ∈ r.wiring, l.length = 26 ∧ (∀ n ∈ l, n < 26) ∧ l.Nodup) ∧
    r.notch.length = 3 ∧ ∀ n ∈ r.notch, n < 26) ∧
  Function.Bijective reflector.rd ∧ ∀ x : Sym, reflector.rd (reflector.rd x) = x ∧ reflector.rd x ≠ x

/-- A configuration that a builder gives is well formed, holds the numbers supplied, and one that is not well formed
runs nothing (00_scope.md R11; the refusal at each step is the model's, log entry 3). -/
def Obligations.MalformedConfigRunsNothing : Prop :=
  (∀ (r : RawConfig) (c : Config), r.build = some c →
    c.wf = true ∧ c.teardownWhilePending = r.teardownWhilePending ∧
      r.notch = c.notch.toList.map Fin.val ∧
      r.wiring = c.wiring.toList.map fun t => t.toList.map Fin.val) ∧
  (∀ c : Config, c.wf = true ↔ ∀ i : Fin 3, Function.Bijective (c.w i).rd) ∧
  ∀ s : State, s.cfg.wf = false → step s = .refused .malformedConfig

/-- 10_state.md R31: no step changes the constant tables and parameters. -/
def Obligations.StepKeepsConfiguration : Prop :=
  ∀ s t : State, step s = .next t → t.cfg = s.cfg

/-- 10_state.md R32: the reflector's 13 pairs. -/
def Obligations.ReflectorPairs : Prop :=
  (∀ p ∈ ([(0, 24), (1, 17), (2, 20), (3, 7), (4, 16), (5, 18), (6, 11), (8, 15), (9, 23), (10, 13), (12, 14), (19, 25),
      (21, 22)] : List (Sym × Sym)), reflector.rd p.1 = p.2 ∧ reflector.rd p.2 = p.1) ∧
  ∀ x : Sym, reflector.rd (reflector.rd x) = x ∧ reflector.rd x ≠ x

/-- 40_rotor_stepping.md R101: for a well-formed configuration `WINV[i][y]` exists and is the unique `j` with
`W[i][j] = y`. -/
def Obligations.InverseWiringIsUnique : Prop :=
  ∀ (c : Config) (i : Fin 3) (y : Sym), c.wf = true →
    ∃ j : Sym, winv? c i y = some j ∧ (c.w i).rd j = y ∧ ∀ k : Sym, (c.w i).rd k = y → k = j

/-! ### Rotors -/

/-- 40_rotor_stepping.md R103: the new offsets as numbers, both predicates taken before the step; no other part of the
configuration than `NOTCH[0]` and `NOTCH[1]` is read. -/
def Obligations.SteppingRule : Prop :=
  ∀ (c : Config) (o : Offsets),
    let k0 := o.o0 = c.notchOf 0
    let k1 := o.o1 = c.notchOf 1
    let n := stepOffsets c o
    n.o0.val = (o.o0.val + 1) % 26 ∧
    (k0 ∨ k1 → n.o1.val = (o.o1.val + 1) % 26) ∧ (¬(k0 ∨ k1) → n.o1 = o.o1) ∧
    (k1 → n.o2.val = (o.o2.val + 1) % 26) ∧ (¬k1 → n.o2 = o.o2) ∧
    ∀ c' : Config, c'.notchOf 0 = c.notchOf 0 → c'.notchOf 1 = c.notchOf 1 → stepOffsets c' o = n

/-- 40_rotor_stepping.md R107, items 1 to 6. -/
def Obligations.SteppingConsequences : Prop :=
  ∀ (c : Config) (o : Offsets),
    ((stepOffsets c)^[26] o).o0 = o.o0 ∧ (∀ n : Nat, 0 < n → n < 26 → ((stepOffsets c)^[n] o).o0 ≠ o.o0) ∧
    ((stepOffsets c o).o1 = o.o1 ∨ (stepOffsets c o).o1 = add26 o.o1 1) ∧
    ((stepOffsets c o).o2 = o.o2 ∨
      ((stepOffsets c o).o2 = add26 o.o2 1 ∧ (stepOffsets c o).o1 = add26 o.o1 1)) ∧
    (∀ c' : Config, c'.notchOf 0 = c.notchOf 0 → c'.notchOf 1 = c.notchOf 1 → stepOffsets c' o = stepOffsets c o) ∧
    (o.o0 = c.notchOf 0 → (stepOffsets c o).o1 = add26 o.o1 1) ∧
    (o.o1 = c.notchOf 1 → (stepOffsets c o).o1 = add26 o.o1 1 ∧ (stepOffsets c o).o2 = add26 o.o2 1)

/-- 40_rotor_stepping.md R105: the double step across two keystrokes. -/
def Obligations.DoubleStepAnomaly : Prop :=
  ∀ (c : Config) (o : Offsets), o.o0 = c.notchOf 0 → o.o1 = sub26 (c.notchOf 1) 1 →
    let n := stepOffsets c o
    let m := stepOffsets c n
    n.o1 = c.notchOf 1 ∧ n.o2 = o.o2 ∧
    m.o1 = add26 (c.notchOf 1) 1 ∧ m.o2 = add26 n.o2 1

/-- 40_rotor_stepping.md R108: with the default notches (PRESUMED, log entry 1) the offsets first return to (0, 0, 0)
after 16900 steps. -/
def Obligations.DefaultStepPeriod : Prop :=
  (stepOffsets Config.default)^[16900] ⟨0, 0, 0⟩ = ⟨0, 0, 0⟩ ∧
  ∀ n : Nat, 0 < n → n < 16900 → (stepOffsets Config.default)^[n] ⟨0, 0, 0⟩ ≠ ⟨0, 0, 0⟩

/-- 10_state.md R34: `NOTCH[2]` affects nothing. Blocks that differ in it alone do the same in every command. -/
def Obligations.ThirdNotchIsUnread : Prop :=
  ∀ (s : State) (n : Sym) (i : Instr) (t : State), exec i s = .next t →
    exec i { s with cfg := { s.cfg with notch := s.cfg.notch.set 2 n } } =
      .next { t with cfg := { s.cfg with notch := s.cfg.notch.set 2 n } }

/-- 40_rotor_stepping.md R110: MKROT sets the three offsets to 0, responds 0, changes nothing else (so twice is as
once), is the word 0x100000, and any other bit set in its word is `RESERVED_NZ`. -/
def Obligations.MkrotZeroesOffsets : Prop :=
  (∀ s : State, exec .mkrot s = .next { s with off := ⟨0, 0, 0⟩, rsp := some 0x0000 }) ∧
  decode 0x100000 = .ok .mkrot ∧
  ∀ w : Cmd, w.toNat / 1048576 = 1 → w.toNat % 1048576 ≠ 0 → decode w = .error .reservedNz

/-- 40_rotor_stepping.md R111: RSTOFF sets the offsets to its operands, whatever legal values they hold, responds 0 and
changes nothing else; it raises `RESERVED_NZ` when `CMD[19:15]` is not 0 and else `OFFSET_RANGE` when an operand is
above 25, and on a fault no offset changes. -/
def Obligations.RstoffSetsBaseline : Prop :=
  (∀ (s : State) (a b c : Operand) (o : Offsets),
    a.toNat = o.o0.val → b.toNat = o.o1.val → c.toNat = o.o2.val →
      exec (.rstoff a b c) s = .next { s with off := o, rsp := some 0x0000 } ∧
      ∀ w : Cmd, w.toNat = 0x400000 + 1024 * c.toNat + 32 * b.toNat + a.toNat → decode w = .ok (.rstoff a b c)) ∧
  ∀ w : Cmd, w.toNat / 1048576 = 4 →
    (w.toNat / 32768 % 32 ≠ 0 → decode w = .error .reservedNz) ∧
    (w.toNat / 32768 % 32 = 0 → (25 < w.toNat % 32 ∨ 25 < w.toNat / 32 % 32 ∨ 25 < w.toNat / 1024 % 32) →
      decode w = .error .offsetRange) ∧
    ∀ (s t : State) (rest : List HostEvent), s.faulted = false → s.inbox = .command w :: rest → step s = .next t →
      t.faulted = true → t.off = s.off

/-- 40_rotor_stepping.md R112: RDOFF presents the three offsets in their fields and writes no state; it is the word
0x600000, and any other bit set in its word is `RESERVED_NZ`. -/
def Obligations.RdoffReadsOffsets : Prop :=
  (∀ s : State, ∃ r : Rsp, exec .rdoff s = .next { s with rsp := some r } ∧
    r.toNat = 1024 * s.off.o2.val + 32 * s.off.o1.val + s.off.o0.val) ∧
  decode 0x600000 = .ok .rdoff ∧
  ∀ w : Cmd, w.toNat / 1048576 = 6 → w.toNat % 1048576 ≠ 0 → decode w = .error .reservedNz

/-! ### Plugboard -/

/-- 41_plugboard.md R121: MKPLUG unplugs every letter, responds 0 and changes nothing else; it is the word 0x200000, and
any other bit set in its word is `RESERVED_NZ`. -/
def Obligations.MkplugUnplugsAll : Prop :=
  (∀ s : State, ∃ t : Table, exec .mkplug s = .next { s with pb := t, rsp := some 0x0000 } ∧ ∀ k : Sym, t.rd k = k) ∧
  decode 0x200000 = .ok .mkplug ∧
  ∀ w : Cmd, w.toNat / 1048576 = 2 → w.toNat % 1048576 ≠ 0 → decode w = .error .reservedNz

/-- 41_plugboard.md R122, for every plugboard, legal operand and value of `TEARDOWN_WHILE_PENDING`; the plugboard entry by
entry, everything not named unchanged. Nothing pending: cases 1 and 2. An unplugged letter pending: cases 4a, 3 and 4b.
A plugged letter pending: `PLUG_STATE`, checked before case 4a. Then the faults at decode, and the words. -/
def Obligations.PickFollowsProtocol : Prop :=
  (∀ (s : State) (a : Operand) (x : Sym), a.toNat = x.val →
    ∃ (t : Table) (r : Rsp), exec (.pick a none) s = .next { s with pb := t, rsp := some r } ∧
      (s.pb.rd x = x → t = s.pb ∧ r.toNat = 32 + x.val) ∧
      (s.pb.rd x ≠ x → r.toNat = 0 ∧
        ∀ k : Sym, t.rd k = if k = x ∨ k = s.pb.rd x then k else s.pb.rd k)) ∧
  (∀ (s : State) (a b : Operand) (x c : Sym), a.toNat = x.val → b.toNat = c.val → s.pb.rd c = c →
    ∃ (t : Table) (r : Rsp), exec (.pick a (some b)) s = .next { s with pb := t, rsp := some r } ∧
      (x = c → t = s.pb ∧ r.toNat = 32 + c.val) ∧
      (x ≠ c → s.pb.rd x = x → r.toNat = 0 ∧
        ∀ k : Sym, t.rd k = if k = c then x else if k = x then c else s.pb.rd k) ∧
      (s.pb.rd x ≠ x → r.toNat = 32 + c.val ∧
        ∀ k : Sym, t.rd k =
          if s.cfg.teardownWhilePending = true ∧ (k = x ∨ k = s.pb.rd x) then k else s.pb.rd k)) ∧
  (∀ (s : State) (a b : Operand) (x c : Sym), a.toNat = x.val → b.toNat = c.val → s.pb.rd c ≠ c →
    ∃ q : StatusWord, exec (.pick a (some b)) s = .next { s with status := q, rsp := none } ∧
      q.toNat = 256 * (0x508000 + 32 * b.toNat + a.toNat) + 16 * 5 + 1) ∧
  (∀ w : Cmd, w.toNat / 1048576 = 5 →
    let p := w.toNat / 32768 % 2
    let resvd := w.toNat / 65536 % 16 ≠ 0 ∨ w.toNat / 1024 % 32 ≠ 0 ∨ (p = 0 ∧ w.toNat / 32 % 32 ≠ 0)
    (resvd → decode w = .error .reservedNz) ∧
    (¬resvd → (25 < w.toNat % 32 ∨ (p = 1 ∧ 25 < w.toNat / 32 % 32)) → decode w = .error .letterRange)) ∧
  ∀ (w : Cmd) (a b : Operand), a.toNat ≤ 25 → b.toNat ≤ 25 →
    (w.toNat = 0x500000 + a.toNat → decode w = .ok (.pick a none)) ∧
    (w.toNat = 0x508000 + 32 * b.toNat + a.toNat → decode w = .ok (.pick a (some b)))

/-- 41_plugboard.md R123: RDPLUG presents the entry of its letter and writes no state; it raises `RESERVED_NZ` when
`CMD[19:5]` is not 0 and else `LETTER_RANGE` when its letter is above 25. -/
def Obligations.RdplugReadsEntry : Prop :=
  (∀ (s : State) (a : Operand) (k : Sym), a.toNat = k.val →
    (∃ r : Rsp, exec (.rdplug a) s = .next { s with rsp := some r } ∧ r.toNat = (s.pb.rd k).val) ∧
    ∀ w : Cmd, w.toNat = 0x700000 + a.toNat → decode w = .ok (.rdplug a)) ∧
  ∀ w : Cmd, w.toNat / 1048576 = 7 →
    (w.toNat / 32 % 32768 ≠ 0 → decode w = .error .reservedNz) ∧
    (w.toNat / 32 % 32768 = 0 → 25 < w.toNat % 32 → decode w = .error .letterRange)

/-- 41_plugboard.md R124: every command keeps the plugboard an involution; only MKPLUG and PICK write it. -/
def Obligations.CommandsKeepInvolution : Prop :=
  ∀ (i : Instr) (s t : State), Involutive s.pb → exec i s = .next t → Involutive t.pb

/-- 41_plugboard.md R126: PICK never swaps partners. A letter whose entry a command changes was unplugged before it or
is unplugged after it. -/
def Obligations.PickNeverSwapsPartners : Prop :=
  ∀ (a : Operand) (p : Option Operand) (s t : State) (k : Sym), Involutive s.pb →
    exec (.pick a p) s = .next t → t.pb.rd k ≠ s.pb.rd k → s.pb.rd k = k ∨ t.pb.rd k = k

/-- 30_encoding.md R74: `PLUG x, y` on two different unplugged letters connects them and leaves every other letter, and
`UNPLUG x` on a plugged letter unplugs its pair. -/
def Obligations.PlugAndUnplugPseudos : Prop :=
  ∀ (s : State) (x y : Sym), x ≠ y →
    (s.pb.rd x = x → s.pb.rd y = y → ∃ (r : Rsp) (t : State),
      transcript (AsmLine.plug x y).expand s = some ([r, 0], t) ∧ r.toNat = 32 + x.val ∧ t.off = s.off ∧
        ∀ k : Sym, t.pb.rd k = if k = x then y else if k = y then x else s.pb.rd k) ∧
    (s.pb.rd x = y → ∃ t : State,
      transcript (AsmLine.unplug x).expand s = some ([0], t) ∧ t.off = s.off ∧
        ∀ k : Sym, t.pb.rd k = if k = x ∨ k = y then k else s.pb.rd k)

/-! ### Encode -/

/-- 42_encode.md R141, R144 to R147: the value of CORE through the nine lines of its pseudocode, as numbers mod 26; the
backward stages are stated through the wirings, not through `WINV`. -/
def Obligations.CoreStages : Prop :=
  ∀ (c : Config) (o : Offsets) (pb : Table) (x y : Sym), c.wf = true →
    (core? c o pb x = some y ↔
      ∃ f0 f1 f2 i0 i1 i2 j2 j1 j0 b2 b1 b0 : Sym,
        i0.val = ((pb.rd x).val + 26 - o.o0.val) % 26 ∧ f0 = (c.w 0).rd i0 ∧
        i1.val = (f0.val + 26 - o.o1.val) % 26 ∧ f1 = (c.w 1).rd i1 ∧
        i2.val = (f1.val + 26 - o.o2.val) % 26 ∧ f2 = (c.w 2).rd i2 ∧
        (c.w 2).rd j2 = reflector.rd f2 ∧ b2.val = (j2.val + o.o2.val) % 26 ∧
        (c.w 1).rd j1 = b2 ∧ b1.val = (j1.val + o.o1.val) % 26 ∧
        (c.w 0).rd j0 = b1 ∧ b0.val = (j0.val + o.o0.val) % 26 ∧ y = pb.rd b0)

/-- 42_encode.md R151: for fixed offsets and an involutive plugboard CORE is a bijection of 0..25 and an involution. -/
def Obligations.CoreIsInvolution : Prop :=
  ∀ (c : Config) (o : Offsets) (pb : Table), c.wf = true → Involutive pb →
    ∃ f : Sym → Sym, (∀ x, core? c o pb x = some (f x)) ∧ Function.Bijective f ∧ ∀ x, f (f x) = x

/-- 42_encode.md R152: no letter is encoded to itself. -/
def Obligations.CoreHasNoFixedPoint : Prop :=
  ∀ (c : Config) (o : Offsets) (pb : Table) (x : Sym), c.wf = true → Involutive pb →
    core? c o pb x ≠ some x

/-- 42_encode.md R155: with x and y connected, CORE of x is the unplugged CORE of y passed through the plugboard. -/
def Obligations.CoreThroughAPlug : Prop :=
  ∀ (c : Config) (o : Offsets) (pb : Table) (x y : Sym), c.wf = true → pb.rd x = y → pb.rd y = x →
    ∃ u v : Sym, core? c o Table.identity y = some u ∧ core? c o pb x = some (pb.rd u) ∧
      core? c o Table.identity x = some v ∧ core? c o pb y = some (pb.rd v)

/-- 42_encode.md R150: ENC steps the offsets, whatever the letter, presents CORE of the letter at the NEW offsets, and
changes nothing else; it raises `RESERVED_NZ` when `CMD[19:5]` is not 0 and else `LETTER_RANGE` when its letter is above
25, and on either fault the block is faulted and the offsets do not step. -/
def Obligations.EncStepsThenSubstitutes : Prop :=
  (∀ (s : State) (a : Operand) (x : Sym), a.toNat = x.val → s.cfg.wf = true →
    (∃ (y : Sym) (r : Rsp), core? s.cfg (stepOffsets s.cfg s.off) s.pb x = some y ∧ r.toNat = y.val ∧
      exec (.enc a) s = .next { s with off := stepOffsets s.cfg s.off, rsp := some r } ∧
      (Involutive s.pb → y ≠ x)) ∧
    ∀ w : Cmd, w.toNat = 0x300000 + a.toNat → decode w = .ok (.enc a)) ∧
  ∀ w : Cmd, w.toNat / 1048576 = 3 →
    (w.toNat / 32 % 32768 ≠ 0 → decode w = .error .reservedNz) ∧
    (w.toNat / 32 % 32768 = 0 → 25 < w.toNat % 32 → decode w = .error .letterRange) ∧
    ∀ (s : State) (rest : List HostEvent), s.cfg.wf = true → s.faulted = false → s.inbox = .command w :: rest →
      (w.toNat / 32 % 32768 ≠ 0 ∨ 25 < w.toNat % 32) →
        ∃ t : State, step s = .next t ∧ t.faulted = true ∧ t.off = s.off

/-- 42_encode.md R153: from offsets s, ENC x gives y; RSTOFF back to s, then ENC y gives x. -/
def Obligations.EncIsReciprocalAfterRewind : Prop :=
  ∀ (s : State) (x : Sym), s.cfg.wf = true → Involutive s.pb →
    ∃ (y : Sym) (t : State),
      transcript [.enc (symBits x), .rstoff (symBits s.off.o0) (symBits s.off.o1) (symBits s.off.o2),
        .enc (symBits y)] s = some ([rspLetter y, 0, rspLetter x], t) ∧
      t.off = stepOffsets s.cfg s.off ∧ t.pb = s.pb

/-- A whole message: its ciphertext, encoded again from the same starting offsets, is the message (42_encode.md R153,
for every length). -/
def Obligations.MessageReciprocity : Prop :=
  ∀ (s : State) (xs : List Sym), s.cfg.wf = true → Involutive s.pb →
    ∃ (ys : List Sym) (t : State), ys.length = xs.length ∧
      transcript (encMessage xs) s = some (ys.map rspLetter, t) ∧
      ∃ u : State, transcript (.rstoff (symBits s.off.o0) (symBits s.off.o1) (symBits s.off.o2) :: encMessage ys) t =
        some (0 :: xs.map rspLetter, u)

/-! ### Frames and whole-machine rules -/

/-- 10_state.md R24: only ENC, MKROT and RSTOFF change the offsets, and a command that faults does not. -/
def Obligations.OnlyThreeCommandsWriteOffsets : Prop :=
  ∀ (i : Instr) (s t : State), exec i s = .next t →
    (∀ a, i ≠ .enc a) → i ≠ .mkrot → (∀ a b c, i ≠ .rstoff a b c) → t.off = s.off

/-- 10_state.md R30: only MKPLUG and PICK change the plugboard: ENC, RSTOFF, MKROT and the reads leave every entry. -/
def Obligations.OnlyTwoCommandsWritePlugboard : Prop :=
  ∀ (i : Instr) (s t : State), exec i s = .next t →
    i ≠ .mkplug → (∀ a p, i ≠ .pick a p) → ∀ k : Sym, t.pb.rd k = s.pb.rd k

/-- 10_state.md R35: only fault entry writes `STATUS` and only reset clears it: a step of a block that leaves `STATUS`
changed is a fault entry of the word offered, or a reset to 0. -/
def Obligations.StatusWrittenOnlyByFaultAndReset : Prop :=
  ∀ s t : State, step s = .next t → t.status ≠ s.status →
    (s.faulted = false ∧ t.faulted = true ∧ t.off = s.off ∧ t.pb = s.pb ∧
      ∃ w rest, s.inbox = .command w :: rest ∧ statusFcmd t.status = w) ∨
    (t.status = 0 ∧ HostEvent.reset ∈ s.inbox)

/-- The fields of `STATUS` after fault entry (10_state.md R35, 60_exceptions.md R200, R203). -/
def Obligations.FaultStatusFields : Prop :=
  ∀ (c : Cause) (w : Cmd),
    statusFlt (faultStatus c w) = true ∧ (faultStatus c w).extractLsb' 1 3 = 0 ∧
    statusCause (faultStatus c w) = (match c with
      | .illegalOp => 1 | .reservedNz => 2 | .letterRange => 3 | .offsetRange => 4 | .plugState => 5) ∧
    statusFcmd (faultStatus c w) = w

/-- 60_exceptions.md R203: faults are precise. A step from a block that is not faulted to one that is changes `STATUS`
to the fault word of the command offered, presents no response, and changes nothing else. -/
def Obligations.FaultsArePrecise : Prop :=
  ∀ s t : State, s.faulted = false → step s = .next t → t.faulted = true →
    ∃ (w : Cmd) (rest : List HostEvent) (c : Cause), s.inbox = .command w :: rest ∧ raises c w ∧
      t = { s with inbox := rest, status := faultStatus c w, rsp := none }

/-- 30_encoding.md R69: a command that does not fault presents a response word, whose bits the command does not define
are 0, and one that faults presents none. -/
def Obligations.ResponseExactlyWhenNoFault : Prop :=
  (∀ (s t : State) (w : Cmd) (rest : List HostEvent), s.faulted = false → s.inbox = .command w :: rest →
    step s = .next t → (t.faulted = false ↔ t.rsp.isSome = true)) ∧
  ∀ (i : Instr) (s t : State) (r : Rsp), exec i s = .next t → t.rsp = some r →
    match i with
    | .mkrot | .mkplug | .rstoff _ _ _ => r = 0
    | .enc _ | .rdplug _ => r.toNat < 32
    | .pick _ _ => r.toNat < 64 ∧ (r.toNat < 32 → r = 0)
    | .rdoff => r.toNat < 32768

/-- 20_memory.md R47: reads have no side effect; MKROT, MKPLUG and RSTOFF are idempotent; ENC is not (it always
advances rotor 0), and PICK is not in general. -/
def Obligations.IdempotentCommands : Prop :=
  (∀ s t : State, exec .rdoff s = .next t → exec .rdoff t = .next t ∧ t = { s with rsp := t.rsp }) ∧
  (∀ (a : Operand) (s t : State), a.toNat < 26 → exec (.rdplug a) s = .next t →
    exec (.rdplug a) t = .next t ∧ t = { s with rsp := t.rsp }) ∧
  (∀ s t : State, exec .mkrot s = .next t → exec .mkrot t = .next t) ∧
  (∀ s t : State, exec .mkplug s = .next t → exec .mkplug t = .next t) ∧
  (∀ (a b c : Operand) (s t : State), exec (.rstoff a b c) s = .next t → exec (.rstoff a b c) t = .next t) ∧
  (∀ (a : Operand) (s t : State), a.toNat < 26 → exec (.enc a) s = .next t → t.off.o0 ≠ s.off.o0) ∧
  ∃ (a : Operand) (p : Option Operand) (s t u : State),
    exec (.pick a p) s = .next t ∧ exec (.pick a p) t = .next u ∧ (u.off, u.pb, u.status) ≠ (t.off, t.pb, t.status)

/-- 20_memory.md R50: commands take effect one at a time in the order the port accepts them. A host that offers a list
of commands, and then whatever it likes, gets, step by step, what executing them one after another gives: each sees every
effect of every earlier one and none of any later one. FaultKeepsEarlierEffects says the same of a list in which a command
faults. -/
def Obligations.CommandsTakeEffectInOrder : Prop :=
  ∀ (s t : State) (is : List Instr) (rs : List Rsp) (rest : List HostEvent), s.cfg.wf = true → s.faulted = false →
    transcript is s = some (rs, t) →
      Host.Core.run Sys2Proof.core is.length { s with inbox := (is.map fun i => .command (encode i)) ++ rest } =
        .next { t with inbox := rest }

/-- 60_exceptions.md R203: when a command faults, every earlier command has had its whole effect and it has none: after
any list of commands that respond, a word that raises a fault, at decode or as a PICK whose pending letter is plugged by
then, leaves what the list leaves, but for `STATUS`, which records the word and the fault's number, and the response port,
which presents nothing. What the host offers next has no part in it. -/
def Obligations.FaultKeepsEarlierEffects : Prop :=
  ∀ (s t : State) (is : List Instr) (rs : List Rsp) (w : Cmd) (c : Cause) (rest : List HostEvent),
    s.cfg.wf = true → s.faulted = false → transcript is s = some (rs, t) →
    (decode w = .error c ∨ (c = .plugState ∧ ∃ (a b : Operand) (k : Sym),
      decode w = .ok (.pick a (some b)) ∧ b.toNat = k.val ∧ t.pb.rd k ≠ k)) →
      ∃ q : StatusWord,
        Host.Core.run Sys2Proof.core (is.length + 1)
          { s with inbox := (is.map fun i => .command (encode i)) ++ .command w :: rest } =
            .next { t with inbox := rest, status := q, rsp := none } ∧
        q.toNat = 256 * w.toNat + 16 * (match c with
          | .illegalOp => 1 | .reservedNz => 2 | .letterRange => 3 | .offsetRange => 4 | .plugState => 5) + 1

/-- 70_reset_and_hazards.md R222: MKROT then MKPLUG, with no fault recorded, leave `OFF`, `PB` and `STATUS` as reset
does. -/
def Obligations.InitIsSoftwareReset : Prop :=
  ∀ s : State, s.Legal → s.faulted = false → ∃ t : State,
    transcript AsmLine.init.expand s = some ([0, 0], t) ∧
      t.off = (State.powerOn s.cfg).off ∧ t.pb = (State.powerOn s.cfg).pb ∧ t.status = (State.powerOn s.cfg).status

/-- 10_state.md R22, R37: the block holds no hidden state. What a command does to the offsets and the plugboard, and
what it answers, depend on the configuration, the offsets and the plugboard alone. -/
def Obligations.NoHiddenState : Prop :=
  ∀ (i : Instr) (s s' t : State), s'.cfg = s.cfg → s'.off = s.off → s'.pb = s.pb → exec i s = .next t →
    ∃ t' : State, exec i s' = .next t' ∧ t'.off = t.off ∧ t'.pb = t.pb ∧ t'.rsp = t.rsp ∧
      t'.inbox = s'.inbox ∧ t.inbox = s.inbox

/-! ### Invariants -/

/-- The reset state, and the state after power-on with any well-formed configuration, are legal. That `State.reset` is
legal rests on its default wirings being bijections (log entry 1, PRESUMED: the spec takes them from general knowledge, not
from the source); the second clause needs no default. -/
def Obligations.PowerOnIsLegal : Prop :=
  State.reset.Legal ∧ ∀ c : Config, c.wf = true → (State.powerOn c).Legal

/-- Every step keeps a state legal: the plugboard an involution (10_state.md R28), `STATUS` 0 or the record of a word
that raises the fault it records (R35, 60_exceptions.md R201), the configuration well formed. -/
def Obligations.StepKeepsStateLegal : Prop :=
  ∀ s t : State, s.Legal → step s = .next t → t.Legal

/-- 10_state.md R28: in every reachable state the plugboard is an involution, for every configuration the block is
built with, whatever the host sends and whenever it resets. -/
def Obligations.ReachablePlugboardIsInvolution : Prop :=
  ∀ (c : Config) (events : List HostEvent) (n : Nat) (t : State), c.wf = true →
    Host.Core.run Sys2Proof.core n { State.powerOn c with inbox := events } = .next t →
      ∀ k : Sym, t.pb.rd (t.pb.rd k) = k

/-- 41_plugboard.md R125: when the host passes back the selection PICK returned, the pending letter stays unplugged
through every act, and no act faults. That the host drops its selection when it resets the block is log entry 18
(DEDUCED). -/
def Obligations.PassedBackSelectionStaysUnplugged : Prop :=
  ∀ (h : Session) (a : HostAct), h.Ok → ∃ h' : Session, h.act a = .next h' ∧ h'.Ok

/-- 60_exceptions.md R206: a host that sends only legal words and passes back PICK's own result never sees a fault,
from power-on with any well-formed configuration, however long it goes on. That the host drops its selection when it
resets the block is log entry 18 (DEDUCED). -/
def Obligations.WellBehavedHostNeverFaults : Prop :=
  ∀ (c : Config) (acts : List HostAct), c.wf = true →
    ∃ h : Session, Session.run ⟨State.powerOn c, none⟩ acts = .next h ∧ h.block.faulted = false ∧
      h.block.status = 0

/-- 30_encoding.md R73: the assembler never emits a word that a check of the decoder turns away. -/
def Obligations.AssemblerEmitsOnlyLegalWords : Prop :=
  ∀ (text : List Char) (ws : List Cmd), assemble text = some ws →
    ∀ w ∈ ws, ∃ i : Instr, decode w = .ok i
end

