-- ==== Sys2Proof/Laws/Table.lean ====
section
/-! SUPPORT. Reading and writing tables, and what the configuration check says. -/

namespace Sys2Proof

/-- A concatenation as a number: the upper part is scaled by the width of the lower. -/
theorem toNat_append_eq {m n : Nat} (x : BitVec m) (y : BitVec n) :
    (x ++ y).toNat = x.toNat * 2 ^ n + y.toNat := by
  rw [BitVec.toNat_append, ← Nat.shiftLeft_add_eq_or_of_lt y.isLt, Nat.shiftLeft_eq]

theorem mem_allSyms (x : Sym) : x ∈ allSyms := by
  revert x; decide

@[simp] theorem Table.rd_identity (k : Sym) : Table.identity.rd k = k := by
  revert k; decide

/-- A read after a write gives the value written there, and what stood before elsewhere. -/
theorem Table.rd_wr (t : Table) (a v k : Sym) : (t.wr a v).rd k = if k = a then v else t.rd k := by
  simp only [Table.rd, Table.wr, Vector.getElem_set, Fin.ext_iff, eq_comm]

@[simp] theorem Table.rd_wr_self (t : Table) (a v : Sym) : (t.wr a v).rd a = v := by
  simp [Table.rd_wr]

theorem Table.rd_wr_ne (t : Table) {a k : Sym} (v : Sym) (h : k ≠ a) : (t.wr a v).rd k = t.rd k := by
  simp [Table.rd_wr, h]

/-- Tables with the same entries are equal. -/
theorem Table.ext_rd {t u : Table} (h : ∀ k : Sym, t.rd k = u.rd k) : t = u := by
  apply Vector.ext
  intro i hi
  exact h ⟨i, hi⟩

/-- The check of a wiring is bijectivity (00_scope.md R11). -/
theorem isBijection_iff (t : Table) : isBijection t = true ↔ Function.Bijective t.rd := by
  have : isBijection t = true ↔ Function.Surjective t.rd := by
    simp [isBijection, mem_allSyms, Function.Surjective]
  rw [this, Finite.surjective_iff_bijective]

theorem reflector_involutive (x : Sym) : reflector.rd (reflector.rd x) = x := by
  revert x; decide

theorem reflector_ne (x : Sym) : reflector.rd x ≠ x := by
  revert x; decide

theorem isReflection_reflector : isReflection reflector = true := by decide

/-- The check of a configuration is that its three wirings are bijections (00_scope.md R11). -/
theorem Config.wf_iff (c : Config) : c.wf = true ↔ ∀ i : Fin 3, Function.Bijective (c.w i).rd := by
  simp [Config.wf, isReflection_reflector, isBijection_iff, Fin.forall_fin_succ, and_assoc]

end Sys2Proof
end

