-- ==== Sys2Proof/Laws/Decode.lean ====
section
/-! SUPPORT. The fields of a command word, read as numbers and read back from `encodeFields`. -/

namespace Sys2Proof

/-! ### The fields as numbers (30_encoding.md R61) -/

theorem cmdOp_toNat (w : Cmd) : (cmdOp w).toNat = w.toNat / 1048576 := by
  have := w.isLt
  simp only [cmdOp, BitVec.extractLsb'_toNat, Nat.shiftRight_eq_div_pow]
  omega

theorem cmdRsv_toNat (w : Cmd) : (cmdRsv w).toNat = w.toNat / 65536 % 16 := by
  simp only [cmdRsv, BitVec.extractLsb'_toNat, Nat.shiftRight_eq_div_pow]

theorem cmdP_toNat (w : Cmd) : (cmdP w).toNat = w.toNat / 32768 % 2 := by
  simp only [cmdP, BitVec.extractLsb'_toNat, Nat.shiftRight_eq_div_pow]

theorem cmdC_toNat (w : Cmd) : (cmdC w).toNat = w.toNat / 1024 % 32 := by
  simp only [cmdC, BitVec.extractLsb'_toNat, Nat.shiftRight_eq_div_pow]

theorem cmdB_toNat (w : Cmd) : (cmdB w).toNat = w.toNat / 32 % 32 := by
  simp only [cmdB, BitVec.extractLsb'_toNat, Nat.shiftRight_eq_div_pow]

theorem cmdA_toNat (w : Cmd) : (cmdA w).toNat = w.toNat % 32 := by
  simp only [cmdA, BitVec.extractLsb'_toNat, Nat.shiftRight_eq_div_pow]
  simp

theorem inRange_iff (a : Operand) : inRange a = true ↔ a.toNat ≤ 25 := by simp [inRange]

/-- The word of `encodeFields` as a number. -/
theorem encodeFields_toNat (op : BitVec 4) (p : BitVec 1) (c b a : Operand) :
    (encodeFields op p c b a).toNat =
      1048576 * op.toNat + 32768 * p.toNat + 1024 * c.toNat + 32 * b.toNat + a.toNat := by
  simp only [encodeFields, toNat_append_eq]
  simp
  omega

end Sys2Proof
end

