-- ==== Sys2Proof/Laws/Operands.lean ====
section
/-! SUPPORT. Operand fields, the arithmetic of letter codes, the inverse wiring and the response words. -/

namespace Sys2Proof.Machine

/-! ### Operands -/

/-- An operand is the letter code of its number, when that is in 0..25. -/
theorem symOf?_eq_some {a : Operand} {x : Sym} : symOf? a = some x ↔ a.toNat = x.val := by
  unfold symOf?
  split
  · simp [Fin.ext_iff]
  · simp only [reduceCtorEq, false_iff]; omega

theorem symOf?_eq_none {a : Operand} : symOf? a = none ↔ 26 ≤ a.toNat := by
  unfold symOf?
  split <;> simp <;> omega

@[simp] theorem symBits_toNat (x : Sym) : (symBits x).toNat = x.val := by
  simp only [symBits, BitVec.toNat_ofNat]
  omega

@[simp] theorem symOf?_symBits (x : Sym) : symOf? (symBits x) = some x := by
  simp [symOf?_eq_some]

/-- An operand that is a letter code is the bits of that code. -/
theorem eq_symBits {a : Operand} {x : Sym} (h : a.toNat = x.val) : a = symBits x :=
  BitVec.eq_of_toNat_eq (by simp [h])

/-! ### Arithmetic mod 26 -/

theorem add26_val (a b : Sym) : (add26 a b).val = (a.val + b.val) % 26 := rfl

theorem sub26_val (a b : Sym) : (sub26 a b).val = (a.val + 26 - b.val) % 26 := rfl

@[simp] theorem sub26_add26 (a b : Sym) : sub26 (add26 a b) b = a := by
  apply Fin.ext; simp only [add26_val, sub26_val]; omega

@[simp] theorem add26_sub26 (a b : Sym) : add26 (sub26 a b) b = a := by
  apply Fin.ext; simp only [add26_val, sub26_val]; omega

theorem add26_one_ne (a : Sym) : add26 a 1 ≠ a := by
  intro h
  have := congrArg Fin.val h
  simp only [add26_val, Fin.val_one] at this
  omega

/-! ### The inverse wiring -/

theorem filter_allSyms_beq (j : Sym) : allSyms.filter (fun k => k == j) = [j] := by
  revert j; decide

/-- A test that one letter alone passes selects that letter. -/
theorem filter_allSyms_eq (p : Sym → Bool) (j : Sym) (hj : p j = true) (hu : ∀ k, p k = true → k = j) :
    allSyms.filter p = [j] := by
  rw [← filter_allSyms_beq j]
  congr 1
  funext k
  by_cases h : k = j
  · simp [h, hj]
  · have : p k ≠ true := fun hk => h (hu k hk)
    simp [h, this]

/-- `WINV[i][y]` is the index whose entry is `y`, for a wiring that is a bijection (40_rotor_stepping.md R101). -/
theorem winv?_eq_some {c : Config} {i : Fin 3} (h : Function.Bijective (c.w i).rd) {y j : Sym} :
    winv? c i y = some j ↔ (c.w i).rd j = y := by
  obtain ⟨k, hk⟩ := h.surjective y
  have : winv? c i y = some k := by
    unfold winv?
    rw [filter_allSyms_eq _ k (by simp [hk]) fun m hm => h.injective (by simpa [hk] using hm)]
  rw [this, Option.some_inj, ← hk]
  exact ⟨fun e => e ▸ rfl, fun e => (h.injective e).symm⟩

/-! ### Response words -/

theorem rspLetter_toNat (y : Sym) : (rspLetter y).toNat = y.val := by
  revert y; decide

@[simp] theorem rspSelection_none : rspSelection none = 0 := rfl

theorem rspSelection_some_toNat (l : Sym) : (rspSelection (some l)).toNat = 32 + l.val := by
  revert l; decide

theorem rspOffsets_toNat (o : Offsets) :
    (rspOffsets o).toNat = 1024 * o.o2.val + 32 * o.o1.val + o.o0.val := by
  simp only [rspOffsets, toNat_append_eq, symBits_toNat]
  simp
  omega

end Sys2Proof.Machine
end

