-- ==== Sys2Proof/Laws/State.lean ====
section
/-! SUPPORT. One lemma per field per update of the state, so that no proof unfolds a record update. -/

namespace Sys2Proof.Machine

/-! ### `State.respond` -/

@[simp] theorem State.respond_cfg (s : State) (r : Rsp) : (s.respond r).cfg = s.cfg := rfl
@[simp] theorem State.respond_off (s : State) (r : Rsp) : (s.respond r).off = s.off := rfl
@[simp] theorem State.respond_pb (s : State) (r : Rsp) : (s.respond r).pb = s.pb := rfl
@[simp] theorem State.respond_status (s : State) (r : Rsp) : (s.respond r).status = s.status := rfl
@[simp] theorem State.respond_rsp (s : State) (r : Rsp) : (s.respond r).rsp = some r := rfl
@[simp] theorem State.respond_inbox (s : State) (r : Rsp) : (s.respond r).inbox = s.inbox := rfl

/-! ### `State.setOff` -/

@[simp] theorem State.setOff_cfg (s : State) (o : Offsets) : (s.setOff o).cfg = s.cfg := rfl
@[simp] theorem State.setOff_off (s : State) (o : Offsets) : (s.setOff o).off = o := rfl
@[simp] theorem State.setOff_pb (s : State) (o : Offsets) : (s.setOff o).pb = s.pb := rfl
@[simp] theorem State.setOff_status (s : State) (o : Offsets) : (s.setOff o).status = s.status := rfl
@[simp] theorem State.setOff_rsp (s : State) (o : Offsets) : (s.setOff o).rsp = s.rsp := rfl
@[simp] theorem State.setOff_inbox (s : State) (o : Offsets) : (s.setOff o).inbox = s.inbox := rfl

/-! ### `State.setPb` -/

@[simp] theorem State.setPb_cfg (s : State) (t : Table) : (s.setPb t).cfg = s.cfg := rfl
@[simp] theorem State.setPb_off (s : State) (t : Table) : (s.setPb t).off = s.off := rfl
@[simp] theorem State.setPb_pb (s : State) (t : Table) : (s.setPb t).pb = t := rfl
@[simp] theorem State.setPb_status (s : State) (t : Table) : (s.setPb t).status = s.status := rfl
@[simp] theorem State.setPb_rsp (s : State) (t : Table) : (s.setPb t).rsp = s.rsp := rfl
@[simp] theorem State.setPb_inbox (s : State) (t : Table) : (s.setPb t).inbox = s.inbox := rfl

/-! ### `State.takeFault` -/

@[simp] theorem State.takeFault_cfg (s : State) (c : Cause) (w : Cmd) : (s.takeFault c w).cfg = s.cfg := rfl
@[simp] theorem State.takeFault_off (s : State) (c : Cause) (w : Cmd) : (s.takeFault c w).off = s.off := rfl
@[simp] theorem State.takeFault_pb (s : State) (c : Cause) (w : Cmd) : (s.takeFault c w).pb = s.pb := rfl
@[simp] theorem State.takeFault_status (s : State) (c : Cause) (w : Cmd) :
    (s.takeFault c w).status = faultStatus c w := rfl
@[simp] theorem State.takeFault_rsp (s : State) (c : Cause) (w : Cmd) : (s.takeFault c w).rsp = none := rfl
@[simp] theorem State.takeFault_inbox (s : State) (c : Cause) (w : Cmd) : (s.takeFault c w).inbox = s.inbox := rfl

/-! ### `State.offer` -/

@[simp] theorem State.offer_cfg (s : State) (e : HostEvent) : (s.offer e).cfg = s.cfg := rfl
@[simp] theorem State.offer_off (s : State) (e : HostEvent) : (s.offer e).off = s.off := rfl
@[simp] theorem State.offer_pb (s : State) (e : HostEvent) : (s.offer e).pb = s.pb := rfl
@[simp] theorem State.offer_status (s : State) (e : HostEvent) : (s.offer e).status = s.status := rfl
@[simp] theorem State.offer_rsp (s : State) (e : HostEvent) : (s.offer e).rsp = s.rsp := rfl
@[simp] theorem State.offer_inbox (s : State) (e : HostEvent) : (s.offer e).inbox = e :: s.inbox := rfl

/-! ### `State.dropEvent` -/

@[simp] theorem State.dropEvent_cfg (s : State) : s.dropEvent.cfg = s.cfg := rfl
@[simp] theorem State.dropEvent_off (s : State) : s.dropEvent.off = s.off := rfl
@[simp] theorem State.dropEvent_pb (s : State) : s.dropEvent.pb = s.pb := rfl
@[simp] theorem State.dropEvent_status (s : State) : s.dropEvent.status = s.status := rfl
@[simp] theorem State.dropEvent_rsp (s : State) : s.dropEvent.rsp = s.rsp := rfl
@[simp] theorem State.dropEvent_inbox (s : State) : s.dropEvent.inbox = s.inbox.tail := rfl

/-! ### `State.applyReset` -/

@[simp] theorem State.applyReset_cfg (s : State) (rest : List HostEvent) : (s.applyReset rest).cfg = s.cfg := rfl
@[simp] theorem State.applyReset_off (s : State) (rest : List HostEvent) : (s.applyReset rest).off = ⟨0, 0, 0⟩ := rfl
@[simp] theorem State.applyReset_pb (s : State) (rest : List HostEvent) : (s.applyReset rest).pb = Table.identity := rfl
@[simp] theorem State.applyReset_status (s : State) (rest : List HostEvent) : (s.applyReset rest).status = 0 := rfl
@[simp] theorem State.applyReset_rsp (s : State) (rest : List HostEvent) : (s.applyReset rest).rsp = none := rfl
@[simp] theorem State.applyReset_inbox (s : State) (rest : List HostEvent) : (s.applyReset rest).inbox = rest := rfl

/-! ### `State.withFetchWord` -/

@[simp] theorem State.withFetchWord_cfg (s : State) (nbits w : Nat) : (s.withFetchWord nbits w).cfg = s.cfg := rfl
@[simp] theorem State.withFetchWord_off (s : State) (nbits w : Nat) : (s.withFetchWord nbits w).off = s.off := rfl
@[simp] theorem State.withFetchWord_pb (s : State) (nbits w : Nat) : (s.withFetchWord nbits w).pb = s.pb := rfl
@[simp] theorem State.withFetchWord_status (s : State) (nbits w : Nat) :
    (s.withFetchWord nbits w).status = s.status := rfl
@[simp] theorem State.withFetchWord_rsp (s : State) (nbits w : Nat) : (s.withFetchWord nbits w).rsp = s.rsp := rfl
@[simp] theorem State.withFetchWord_inbox (s : State) (nbits w : Nat) :
    (s.withFetchWord nbits w).inbox = .command (BitVec.ofNat 24 (w % 2 ^ nbits)) :: s.inbox := rfl

/-! ### `State.powerOn` -/

@[simp] theorem State.powerOn_cfg (c : Config) : (State.powerOn c).cfg = c := rfl
@[simp] theorem State.powerOn_off (c : Config) : (State.powerOn c).off = ⟨0, 0, 0⟩ := rfl
@[simp] theorem State.powerOn_pb (c : Config) : (State.powerOn c).pb = Table.identity := rfl
@[simp] theorem State.powerOn_status (c : Config) : (State.powerOn c).status = 0 := rfl
@[simp] theorem State.powerOn_rsp (c : Config) : (State.powerOn c).rsp = none := rfl
@[simp] theorem State.powerOn_inbox (c : Config) : (State.powerOn c).inbox = [] := rfl

end Sys2Proof.Machine
end

