-- ==== Sys2Proof/Laws/Ops.lean ====
section
/-! SUPPORT. What each shared operation can do, said once: fault entry, the host's next reset, STEP, CORE, one pick. -/

namespace Sys2Proof.Machine

/-! ### `STATUS` (10_state.md R35, 60_exceptions.md R203) -/

theorem faultStatus_toNat (c : Cause) (w : Cmd) :
    (faultStatus c w).toNat = 256 * w.toNat + 16 * (causeCode c).toNat + 1 := by
  simp only [faultStatus, toNat_append_eq]
  simp
  omega

@[simp] theorem statusFlt_faultStatus (c : Cause) (w : Cmd) : statusFlt (faultStatus c w) = true := by
  simp only [statusFlt, BitVec.getLsbD, Nat.testBit_zero, faultStatus_toNat, decide_eq_true_eq]
  omega

@[simp] theorem statusFcmd_faultStatus (c : Cause) (w : Cmd) : statusFcmd (faultStatus c w) = w := by
  apply BitVec.eq_of_toNat_eq
  have := w.isLt
  have := (causeCode c).isLt
  simp only [statusFcmd, BitVec.extractLsb'_toNat, Nat.shiftRight_eq_div_pow, faultStatus_toNat]
  omega

@[simp] theorem statusCause_faultStatus (c : Cause) (w : Cmd) : statusCause (faultStatus c w) = causeCode c := by
  apply BitVec.eq_of_toNat_eq
  have := (causeCode c).isLt
  simp only [statusCause, BitVec.extractLsb'_toNat, Nat.shiftRight_eq_div_pow, faultStatus_toNat]
  omega

@[simp] theorem State.takeFault_faulted (s : State) (c : Cause) (w : Cmd) : (s.takeFault c w).faulted = true := by
  simp [State.faulted]

@[simp] theorem State.applyReset_faulted (s : State) (rest : List HostEvent) : (s.applyReset rest).faulted = false := by
  simp [State.faulted, statusFlt]

/-! ### The host's next reset -/

/-- The events after the first reset are those behind it; there are none to give exactly when no reset is coming. -/
theorem afterReset_eq_some {l rest : List HostEvent} (h : afterReset l = some rest) :
    ∃ offered, l = offered ++ .reset :: rest ∧ HostEvent.reset ∉ offered := by
  induction l with
  | nil => cases h
  | cons e l ih =>
    cases e with
    | reset => exact ⟨[], by simpa [afterReset] using h⟩
    | command w =>
      obtain ⟨o, rfl, ho⟩ := ih h
      exact ⟨.command w :: o, rfl, by simpa using ho⟩

theorem afterReset_eq_none {l : List HostEvent} : afterReset l = none ↔ HostEvent.reset ∉ l := by
  induction l with
  | nil => simp [afterReset]
  | cons e l ih => cases e <;> simp [afterReset, ih]

/-! ### STEP -/

/-- STEP always advances rotor 0 (40_rotor_stepping.md R103). -/
@[simp] theorem stepOffsets_o0 (c : Config) (o : Offsets) : (stepOffsets c o).o0 = add26 o.o0 1 := rfl

/-! ### CORE -/

theorem backward?_eq_some {c : Config} {i : Fin 3} (h : Function.Bijective (c.w i).rd) {o x y : Sym} :
    backward? c i o x = some y ↔ (c.w i).rd (sub26 y o) = x := by
  simp only [backward?, Option.map_eq_some_iff, winv?_eq_some h]
  constructor
  · rintro ⟨j, rfl, rfl⟩; simp
  · intro hx; exact ⟨_, hx, by simp⟩

/-- The backward pass is the inverse of the forward pass (42_encode.md R146). -/
theorem backwardPass?_eq_some {c : Config} (h : c.wf = true) {o : Offsets} {x y : Sym} :
    backwardPass? c o x = some y ↔ forwardPass c o y = x := by
  have h0 := (Config.wf_iff c).mp h 0
  have h1 := (Config.wf_iff c).mp h 1
  have h2 := (Config.wf_iff c).mp h 2
  unfold backwardPass? forwardPass forward
  constructor
  · intro e
    split at e
    · cases e
    · rename_i x2 e2
      split at e
      · cases e
      · rename_i x1 e1
        rw [backward?_eq_some h2] at e2
        rw [backward?_eq_some h1] at e1
        rw [backward?_eq_some h0] at e
        rw [e, e1, e2]
  · rintro rfl
    rw [(backward?_eq_some h2).mpr rfl]
    simp only
    rw [(backward?_eq_some h1).mpr rfl]
    simp only
    rw [(backward?_eq_some h0).mpr rfl]

theorem forwardPass_bijective {c : Config} (h : c.wf = true) (o : Offsets) : Function.Bijective (forwardPass c o) := by
  have hs : ∀ d : Sym, Function.Injective fun x => sub26 x d := by
    intro d x y e
    have := congrArg (fun z => add26 z d) e
    simpa using this
  have hw := fun i => ((Config.wf_iff c).mp h i).injective
  exact Finite.injective_iff_bijective.mp
    ((((hw 2).comp (hs _)).comp ((hw 1).comp (hs _))).comp ((hw 0).comp (hs _)))

/-- CORE, said without the inverse tables (42_encode.md R141): `y` is the answer for `x` exactly when the letter `z`
behind the outgoing plug goes forward to the reflection of where the incoming letter goes. -/
theorem core?_eq_some {c : Config} (h : c.wf = true) {o : Offsets} {pb : Table} {x y : Sym} :
    core? c o pb x = some y ↔
      ∃ z, forwardPass c o z = reflector.rd (forwardPass c o (pb.rd x)) ∧ pb.rd z = y := by
  simp only [core?, Option.map_eq_some_iff, backwardPass?_eq_some h]

/-- CORE has a value for every letter of a well-formed configuration (42_encode.md R150: total). -/
theorem core?_isSome {c : Config} (h : c.wf = true) (o : Offsets) (pb : Table) (x : Sym) :
    ∃ y, core? c o pb x = some y := by
  obtain ⟨z, hz⟩ := (forwardPass_bijective h o).surjective (reflector.rd (forwardPass c o (pb.rd x)))
  exact ⟨pb.rd z, (core?_eq_some h).mpr ⟨z, hz, rfl⟩⟩

/-! ### One pick (41_plugboard.md R122) -/

/-- Tearing down the pair of `a` unplugs `a` and its partner and nothing else. -/
theorem rd_tearDown (pb : Table) (a k : Sym) :
    (tearDown pb a).rd k = if k = a ∨ k = pb.rd a then k else pb.rd k := by
  unfold tearDown
  by_cases h : k = pb.rd a
  · subst h; simp
  · rw [Table.rd_wr_ne _ _ h, Table.rd_wr]
    by_cases h' : k = a <;> simp [h, h']

/-- Connecting `c` and `a` writes the two of them and nothing else. -/
theorem rd_connect (pb : Table) {c a : Sym} (h : a ≠ c) (k : Sym) :
    (connect pb c a).rd k = if k = c then a else if k = a then c else pb.rd k := by
  unfold connect
  rw [Table.rd_wr, Table.rd_wr]
  by_cases h' : k = a
  · subst h'; simp [h]
  · simp [h']

theorem tearDown_involutive {pb : Table} (h : Involutive pb) (a : Sym) : Involutive (tearDown pb a) := by
  intro k
  have hk := h k
  have ha := h a
  simp only [rd_tearDown]
  grind

theorem connect_involutive {pb : Table} (h : Involutive pb) {c a : Sym} (hn : a ≠ c) (hc : pb.rd c = c)
    (ha : pb.rd a = a) : Involutive (connect pb c a) := by
  intro k
  have hk := h k
  simp only [rd_connect pb hn]
  grind

/-- A pick keeps the plugboard an involution (41_plugboard.md R124). -/
theorem pickStep_involutive {td : Bool} {pb : Table} {a : Sym} {p : Option Sym} {t : Table} {sel : Option Sym}
    (h : Involutive pb) (e : pickStep td pb a p = .ok (t, sel)) : Involutive t := by
  unfold pickStep at e
  split at e
  · split at e <;> cases e
    · exact h
    · exact tearDown_involutive h a
  · split at e
    · cases e
    · rename_i hc
      split at e
      · cases e; exact h
      · rename_i hn
        split at e
        · rename_i ha
          cases e; exact connect_involutive h hn (not_not.mp hc) ha
        · cases e
          split
          · exact tearDown_involutive h a
          · exact h

end Sys2Proof.Machine
end

