-- ==== Sys2Proof/Laws/Exec.lean ====
section
/-! SUPPORT. What one command and one step can do, said once: every proof about a next state starts from these cases. -/

namespace Sys2Proof.Machine

/-! ### The commands -/

/-- PICK with letters: fault entry, or the plugboard and the selection of `pickStep`. -/
theorem pickLetters_next {w : Cmd} {a : Sym} {p : Option Sym} {s t : State} (h : pickLetters w a p s = .next t) :
    (∃ c, pickStep s.cfg.teardownWhilePending s.pb a p = .error c ∧ t = s.takeFault c w) ∨
    ∃ pb sel, pickStep s.cfg.teardownWhilePending s.pb a p = .ok (pb, sel) ∧
      t = (s.setPb pb).respond (rspSelection sel) := by
  unfold pickLetters at h
  split at h <;> rename_i e <;> cases h
  · exact .inr ⟨_, _, e, rfl⟩
  · exact .inl ⟨_, e, rfl⟩

/-- The only fault of a pick is `PLUG_STATE`, and only with a letter pending (41_plugboard.md R122). -/
theorem pickStep_error {td : Bool} {pb : Table} {a : Sym} {p : Option Sym} {c : Cause}
    (h : pickStep td pb a p = .error c) : c = .plugState ∧ ∃ b, p = some b ∧ pb.rd b ≠ b := by
  unfold pickStep at h
  split at h
  · split at h <;> cases h
  · split at h
    · rename_i hb
      cases h
      exact ⟨rfl, _, rfl, hb⟩
    · split at h
      · cases h
      · split at h <;> cases h

/-- What ENC can do (42_encode.md R150). -/
theorem execEnc_next {a : Operand} {s t : State} (h : execEnc a s = .next t) :
    (26 ≤ a.toNat ∧ t = s.takeFault .letterRange (encode (.enc a))) ∨
    ∃ x y, a.toNat = x.val ∧ core? s.cfg (stepOffsets s.cfg s.off) s.pb x = some y ∧
      t = (s.setOff (stepOffsets s.cfg s.off)).respond (rspLetter y) := by
  unfold execEnc at h
  split at h
  · rename_i e
    cases h
    exact .inl ⟨symOf?_eq_none.mp e, rfl⟩
  · rename_i x e
    split at h <;> rename_i e' <;> cases h
    exact .inr ⟨x, _, symOf?_eq_some.mp e, e', rfl⟩

/-- What RSTOFF can do (40_rotor_stepping.md R111). -/
theorem execRstoff_next {a b c : Operand} {s t : State} (h : execRstoff a b c s = .next t) :
    ((26 ≤ a.toNat ∨ 26 ≤ b.toNat ∨ 26 ≤ c.toNat) ∧
      t = s.takeFault .offsetRange (encode (.rstoff a b c))) ∨
    ∃ o : Offsets, a.toNat = o.o0.val ∧ b.toNat = o.o1.val ∧ c.toNat = o.o2.val ∧
      t = (s.setOff o).respond rspNone := by
  unfold execRstoff at h
  split at h
  · rename_i x y z ex ey ez
    cases h
    exact .inr ⟨⟨x, y, z⟩, symOf?_eq_some.mp ex, symOf?_eq_some.mp ey, symOf?_eq_some.mp ez, rfl⟩
  · rename_i hn
    cases h
    refine .inl ⟨?_, rfl⟩
    by_contra hlt
    push Not at hlt
    exact hn ⟨a.toNat, hlt.1⟩ ⟨b.toNat, hlt.2.1⟩ ⟨c.toNat, hlt.2.2⟩ (symOf?_eq_some.mpr rfl)
      (symOf?_eq_some.mpr rfl) (symOf?_eq_some.mpr rfl)

/-- What PICK can do (41_plugboard.md R122). -/
theorem execPick_next {a : Operand} {p : Option Operand} {s t : State} (h : execPick a p s = .next t) :
    ((26 ≤ a.toNat ∨ ∃ b, p = some b ∧ 26 ≤ b.toNat) ∧ t = s.takeFault .letterRange (encode (.pick a p))) ∨
    ∃ (x : Sym) (q : Option Sym), a.toNat = x.val ∧ p = q.map symBits ∧
      ((∃ c, pickStep s.cfg.teardownWhilePending s.pb x q = .error c ∧ t = s.takeFault c (encode (.pick a p))) ∨
        ∃ pb sel, pickStep s.cfg.teardownWhilePending s.pb x q = .ok (pb, sel) ∧
          t = (s.setPb pb).respond (rspSelection sel)) := by
  unfold execPick at h
  split at h
  · rename_i x e
    exact .inr ⟨x, none, symOf?_eq_some.mp e, rfl, pickLetters_next h⟩
  · rename_i x b e
    split at h
    · rename_i y e'
      have hb := eq_symBits (symOf?_eq_some.mp e')
      exact .inr ⟨x, some y, symOf?_eq_some.mp e, by rw [hb]; rfl, pickLetters_next h⟩
    · rename_i e'
      cases h
      exact .inl ⟨.inr ⟨b, rfl, symOf?_eq_none.mp e'⟩, rfl⟩
  · rename_i e
    cases h
    exact .inl ⟨.inl (symOf?_eq_none.mp e), rfl⟩

/-- What RDPLUG can do (41_plugboard.md R123). -/
theorem execRdplug_next {a : Operand} {s t : State} (h : execRdplug a s = .next t) :
    (26 ≤ a.toNat ∧ t = s.takeFault .letterRange (encode (.rdplug a))) ∨
    ∃ k, a.toNat = k.val ∧ t = s.respond (rspLetter (s.pb.rd k)) := by
  unfold execRdplug at h
  split at h <;> rename_i e <;> cases h
  · exact .inr ⟨_, symOf?_eq_some.mp e, rfl⟩
  · exact .inl ⟨symOf?_eq_none.mp e, rfl⟩

/-- What any command can do: fault entry for its own word, or a response after a write of the offsets (ENC, MKROT and
RSTOFF only) or of the plugboard (MKPLUG and PICK only). -/
theorem exec_next {i : Instr} {s t : State} (h : exec i s = .next t) :
    (∃ c, t = s.takeFault c (encode i)) ∨
    ∃ o pb r, t = ((s.setOff o).setPb pb).respond r ∧
      (o = s.off ∨ (∃ a, i = .enc a) ∨ i = .mkrot ∨ ∃ a b c, i = .rstoff a b c) ∧
      (pb = s.pb ∨ (i = .mkplug ∧ pb = Table.identity) ∨
        ∃ a p x q sel, i = .pick a p ∧ pickStep s.cfg.teardownWhilePending s.pb x q = .ok (pb, sel)) := by
  cases i with
  | mkrot => cases h; exact .inr ⟨⟨0, 0, 0⟩, s.pb, rspNone, rfl, .inr (.inr (.inl rfl)), .inl rfl⟩
  | mkplug => cases h; exact .inr ⟨s.off, Table.identity, rspNone, rfl, .inl rfl, .inr (.inl ⟨rfl, rfl⟩)⟩
  | enc a =>
    obtain ⟨_, rfl⟩ | ⟨x, y, _, _, rfl⟩ := execEnc_next h
    · exact .inl ⟨_, rfl⟩
    · exact .inr ⟨stepOffsets s.cfg s.off, s.pb, rspLetter y, rfl, .inr (.inl ⟨a, rfl⟩), .inl rfl⟩
  | rstoff a b c =>
    obtain ⟨_, rfl⟩ | ⟨o, _, _, _, rfl⟩ := execRstoff_next h
    · exact .inl ⟨_, rfl⟩
    · exact .inr ⟨o, s.pb, rspNone, rfl, .inr (.inr (.inr ⟨a, b, c, rfl⟩)), .inl rfl⟩
  | pick a p =>
    obtain ⟨_, rfl⟩ | ⟨x, q, _, _, ⟨c, _, rfl⟩ | ⟨pb, sel, e, rfl⟩⟩ := execPick_next h
    · exact .inl ⟨_, rfl⟩
    · exact .inl ⟨c, rfl⟩
    · exact .inr ⟨s.off, pb, rspSelection sel, rfl, .inl rfl, .inr (.inr ⟨a, p, x, q, sel, rfl, e⟩)⟩
  | rdoff => cases h; exact .inr ⟨s.off, s.pb, rspOffsets s.off, rfl, .inl rfl, .inl rfl⟩
  | rdplug a =>
    obtain ⟨_, rfl⟩ | ⟨k, _, rfl⟩ := execRdplug_next h
    · exact .inl ⟨_, rfl⟩
    · exact .inr ⟨s.off, s.pb, rspLetter (s.pb.rd k), rfl, .inl rfl, .inl rfl⟩

/-- A command neither reads nor writes what the host will do next: with another list of events coming it does the same. -/
theorem exec_with_inbox {i : Instr} {s t : State} (h : exec i s = .next t) (l : List HostEvent) :
    exec i { s with inbox := l } = .next { t with inbox := l } := by
  cases i with
  | mkrot => cases h; rfl
  | mkplug => cases h; rfl
  | rdoff => cases h; rfl
  | enc a =>
    simp only [exec, execEnc] at h ⊢
    split at h
    · cases h; rfl
    · split at h <;> cases h; rfl
  | rstoff a b c => simp only [exec, execRstoff] at h ⊢; split at h <;> cases h <;> rfl
  | rdplug a => simp only [exec, execRdplug] at h ⊢; split at h <;> cases h <;> rfl
  | pick a p =>
    have letters : ∀ {w x q}, pickLetters w x q s = .next t →
        pickLetters w x q { s with inbox := l } = .next { t with inbox := l } := by
      intro w x q hp
      simp only [pickLetters] at hp ⊢
      split at hp <;> cases hp <;> rfl
    simp only [exec, execPick] at h ⊢
    split at h
    · exact letters h
    · split at h
      · exact letters h
      · cases h; rfl
    · cases h; rfl

/-! ### The step -/

/-- What one step can do: nothing when nothing is sent, a reset, the fault a word raises at decode, or the command it
decodes to. -/
theorem step_next {s t : State} (h : step s = .next t) : s.cfg.wf = true ∧
    ((s.faulted = false ∧ s.inbox = [] ∧ t = s) ∨
     (∃ rest, t = s.applyReset rest ∧ HostEvent.reset ∈ s.inbox ∧
        (s.faulted = true ∨ s.inbox = .reset :: rest)) ∨
     ∃ w rest, s.faulted = false ∧ s.inbox = .command w :: rest ∧
       ((∃ c, decode w = .error c ∧ t = s.dropEvent.takeFault c w) ∨
        ∃ i, decode w = .ok i ∧ exec i s.dropEvent = .next t)) := by
  unfold step advance at h
  split at h
  · rename_i hwf
    refine ⟨hwf, ?_⟩
    split at h
    · rename_i hf
      unfold awaitReset at h
      split at h <;> cases h
      rename_i rest e
      obtain ⟨o, ho, _⟩ := afterReset_eq_some e
      exact .inr (.inl ⟨rest, rfl, by simp [ho], .inl hf⟩)
    · rename_i hf
      have hf : s.faulted = false := by simpa using hf
      unfold takeEvent at h
      split at h
      · cases h; exact .inl ⟨hf, ‹_›, rfl⟩
      · rename_i rest e
        cases h
        exact .inr (.inl ⟨rest, rfl, by simp [e], .inr e⟩)
      · rename_i w rest e
        unfold runCommand at h
        split at h
        · exact .inr (.inr ⟨w, rest, hf, e, .inr ⟨_, ‹_›, h⟩⟩)
        · cases h
          exact .inr (.inr ⟨w, rest, hf, e, .inl ⟨_, ‹_›, rfl⟩⟩)
  · cases h

/-- A block that is not faulted and is offered a word runs that word. -/
theorem step_command {s : State} (hwf : s.cfg.wf = true) (hf : s.faulted = false) {w : Cmd} {rest : List HostEvent}
    (h : s.inbox = .command w :: rest) : step s = runCommand w { s with inbox := rest } := by
  have hd : s.dropEvent = { s with inbox := rest } := by simp [State.dropEvent, h]
  simp [step, advance, takeEvent, hwf, hf, h, hd]

/-- `m + n` steps are `m` steps and then `n`. -/
theorem run_add {m n : Nat} {s t : State} (h : Host.Core.run Sys2Proof.core m s = .next t) :
    Host.Core.run Sys2Proof.core (m + n) s = Host.Core.run Sys2Proof.core n t := by
  induction m generalizing s with
  | zero => cases h; rw [Nat.zero_add]
  | succ m ih =>
    rw [Nat.succ_add]
    simp only [Host.Core.run] at h ⊢
    split at h
    · exact ih h
    · cases h
    · cases h

end Sys2Proof.Machine
end

