-- ==== Sys2Proof/Laws/PerInstr.lean ====
section
/-! SUPPORT. One statement for every command, made constructor by constructor: the word of a command carries the opcode
of 30_encoding.md R64 and no reserved bit (R61). -/

namespace Sys2Proof.Laws.EncodedOpcode

/-- The opcode map (30_encoding.md R64). -/
def opcodeOf : Instr → Nat
  | .mkrot => 1
  | .mkplug => 2
  | .enc _ => 3
  | .rstoff _ _ _ => 4
  | .pick _ _ => 5
  | .rdoff => 6
  | .rdplug _ => 7

/-- The word of the command has its opcode in `OP` and 0 in `RSV`. -/
def Statement (i : Instr) : Prop := (cmdOp (encode i)).toNat = opcodeOf i ∧ (cmdRsv (encode i)).toNat = 0

theorem of_fields (op : BitVec 4) (p : BitVec 1) (c b a : Operand) :
    (cmdOp (encodeFields op p c b a)).toNat = op.toNat ∧ (cmdRsv (encodeFields op p c b a)).toNat = 0 := by
  have := op.isLt
  have := p.isLt
  have := c.isLt
  have := b.isLt
  have := a.isLt
  rw [cmdOp_toNat, cmdRsv_toNat, encodeFields_toNat]
  omega

theorem mkrot : Statement .mkrot := of_fields _ _ _ _ _

theorem mkplug : Statement .mkplug := of_fields _ _ _ _ _

theorem enc (a : Operand) : Statement (.enc a) := of_fields _ _ _ _ _

theorem rstoff (a b c : Operand) : Statement (.rstoff a b c) := of_fields _ _ _ _ _

theorem pick (a : Operand) (pending : Option Operand) : Statement (.pick a pending) := by
  cases pending <;> exact of_fields _ _ _ _ _

theorem rdoff : Statement .rdoff := of_fields _ _ _ _ _

theorem rdplug (a : Operand) : Statement (.rdplug a) := of_fields _ _ _ _ _

end Sys2Proof.Laws.EncodedOpcode
end

