-- ==== Sys2Proof/Tests/Slice0.lean ====
section
/-! SUPPORT. Tests, each with its expected values from spec/95_test_vectors.md or from the rule it names, and the
witnesses that the hypotheses of the statements can be met. -/

namespace Sys2Proof.Machine.Tests

/-! ### Helpers -/

/-- The reset block with the given offsets and plugboard. -/
def block (o : Offsets) (pb : Table) : State := { State.reset with off := o, pb := pb }

/-- The plugboard with the given pairs. -/
def pairs (l : List (Sym × Sym)) : Table := l.foldl (fun t p => connect t p.1 p.2) Table.identity

/-- The state after the word `w` is offered and one step taken. -/
def after (s : State) (w : Cmd) : Option State := nextState? (step (s.offer (.command w)))

/-- The default configuration with `TEARDOWN_WHILE_PENDING` = true. -/
def tearing : Config := { Config.default with teardownWhilePending := true }

/-- The block after ENC #26 (95_test_vectors.md P4). -/
def faultedBlock : State := { State.reset with status := 0x30001A31 }

/-- The default configuration as numbers. -/
def rawDefault : RawConfig :=
  { wiring := [wiringI, wiringII, wiringIII].map fun t => t.toList.map Fin.val, notch := [16, 4, 21],
    teardownWhilePending := false }

/-- A configuration whose first wiring has `a` twice. -/
def doubled : Config := { Config.default with wiring := #v[wiringI.wr 1 4, wiringII, wiringIII] }

/-! ### Well-formedness: an ill-formed term for each check is refused -/

theorem test_wf_refuses_letters : (Instr.enc 26).wf = false ∧ (Instr.rdplug 31).wf = false := by decide

theorem test_wf_refuses_offsets :
    (Instr.rstoff 26 0 0).wf = false ∧ (Instr.rstoff 0 26 0).wf = false ∧ (Instr.rstoff 0 0 26).wf = false := by decide

theorem test_wf_refuses_pick :
    (Instr.pick 26 none).wf = false ∧ (Instr.pick 26 (some 0)).wf = false ∧ (Instr.pick 0 (some 26)).wf = false := by
  decide

theorem test_wf_accepts : (Instr.enc 25).wf ∧ (Instr.pick 25 (some 25)).wf ∧ (Instr.rstoff 25 25 25).wf := by decide

/-- 95_test_vectors.md L-1: the default configuration is accepted. -/
theorem test_config_accepts_default : rawDefault.build = some Config.default := by decide

/-- 95_test_vectors.md L-1: a wiring with `a` twice is refused. -/
theorem test_config_refuses_double : doubled.wf = false := by decide

theorem test_config_refuses_counts :
    { rawDefault with wiring := rawDefault.wiring.tail }.build = none ∧
    { rawDefault with notch := [16, 4] }.build = none ∧
    { rawDefault with wiring := rawDefault.wiring.map List.tail }.build = none := by decide

theorem test_config_refuses_range :
    { rawDefault with notch := [26, 4, 21] }.build = none ∧
    { rawDefault with wiring := rawDefault.wiring.map fun (l : List Nat) => 26 :: l.tail }.build = none := by decide

theorem test_reflection_check_refuses : isReflection Table.identity = false ∧ isReflection wiringI = false := by decide

/-! ### Decoding: words written out bit by bit from 30_encoding.md R62 and R64 -/

/-- Groups: `OP`, `RSV`, `P`, `C`, `B`, `A`. -/
theorem test_decode_words :
    (decode 0b0001_0000_0_00000_00000_00000).toOption = some .mkrot ∧
    (decode 0b0010_0000_0_00000_00000_00000).toOption = some .mkplug ∧
    (decode 0b0011_0000_0_00000_00000_10101).toOption = some (.enc 21) ∧
    (decode 0b0100_0000_0_00011_00101_10000).toOption = some (.rstoff 16 5 3) ∧
    (decode 0b0101_0000_0_00000_00000_00010).toOption = some (.pick 2 none) ∧
    (decode 0b0101_0000_1_00000_00010_00011).toOption = some (.pick 3 (some 2)) ∧
    (decode 0b0110_0000_0_00000_00000_00000).toOption = some .rdoff ∧
    (decode 0b0111_0000_0_00000_00000_11001).toOption = some (.rdplug 25) := by decide

/-- The words that 95_test_vectors.md V-P and V-R give for these commands. -/
theorem test_encode_words :
    encode (.rstoff 16 3 0) = 0x400070 ∧ encode (.rstoff 25 25 25) = 0x406739 ∧
    encode (.pick 3 (some 2)) = 0x508043 ∧ encode (.rdplug 25) = 0x700019 ∧ encode (.enc 0) = 0x300000 := by decide

theorem test_decode_table_word :
    decodeTableWord 24 0x400000 = some (.rstoff 0 0 0) ∧ decodeTableWord 24 0x800000 = none := by decide

/-- `STATUS` after a word that a check of the decoder turns away, from reset. -/
def decodeStatus (w : Cmd) : StatusWord :=
  match decode w with
  | .ok _ => 0
  | .error c => faultStatus c w

/-- 95_test_vectors.md V-D: faulting words, and `STATUS` after each. -/
theorem test_decode_faults :
    List.map decodeStatus [
      0x000000, 0x800000, 0xFFFFFF, 0x110000, 0x100001, 0x108000, 0x300020, 0x30001A, 0x3F001F, 0x4068DA,
      0x408000, 0x500400, 0x500020, 0x50801A, 0x5083A0, 0x600001, 0x70001B] = [
      0x00000011, 0x80000011, 0xFFFFFF11, 0x11000021, 0x10000121, 0x10800021, 0x30002021, 0x30001A31,
      0x3F001F21, 0x4068DA41, 0x40800021, 0x50040021, 0x50002021, 0x50801A31, 0x5083A031, 0x60000121,
      0x70001B31] := by decide

/-! ### Commands: one step each, expected values from 95_test_vectors.md -/

/-- V-R. -/
theorem test_mkrot : (after (block ⟨17, 5, 1⟩ (pairs [(0, 1)])) 0x100000).map (fun t => (t.off, t.pb, t.rsp)) =
    some (⟨0, 0, 0⟩, pairs [(0, 1)], some 0x0000) := by decide

/-- V-R. -/
theorem test_rstoff : (after State.reset 0x4000F9).map (fun t => (t.off, t.rsp, t.status)) =
    some (⟨25, 7, 0⟩, some 0x0000, 0) := by decide

/-- V-D: RSTOFF 26, 6, 26. -/
theorem test_rstoff_range : (after State.reset 0x4068DA).map (fun t => (t.off, t.rsp, t.status)) =
    some (⟨0, 0, 0⟩, none, 0x4068DA41) := by decide

/-- V-R. -/
theorem test_rdoff : (after (block ⟨18, 5, 1⟩ Table.identity) 0x600000).map (fun t => (t.off, t.rsp)) =
    some (⟨18, 5, 1⟩, some 0x04B2) := by decide

/-- V-P. -/
theorem test_mkplug : (after (block ⟨1, 2, 3⟩ (pairs [(0, 1), (2, 3)])) 0x200000).map (fun t => (t.off, t.pb, t.rsp)) =
    some (⟨1, 2, 3⟩, Table.identity, some 0x0000) := by decide

/-- V-P: cases 1, 2, 3, 4a, and 4b with the parameter false and true. -/
theorem test_pick_cases :
    (after State.reset 0x500002).map (fun t => (t.pb, t.rsp)) = some (pairs [], some 0x0022) ∧
    (after (block ⟨0, 0, 0⟩ (pairs [(0, 1)])) 0x500001).map (fun t => (t.pb, t.rsp)) = some (pairs [], some 0x0000) ∧
    (after (block ⟨0, 0, 0⟩ (pairs [(0, 1)])) 0x508043).map (fun t => (t.pb, t.rsp)) =
      some (pairs [(0, 1), (2, 3)], some 0x0000) ∧
    (after State.reset 0x508042).map (fun t => (t.pb, t.rsp)) = some (pairs [], some 0x0022) ∧
    (after (block ⟨0, 0, 0⟩ (pairs [(0, 1)])) 0x508040).map (fun t => (t.pb, t.rsp)) =
      some (pairs [(0, 1)], some 0x0022) ∧
    (after { block ⟨0, 0, 0⟩ (pairs [(0, 1)]) with cfg := tearing } 0x508040).map (fun t => (t.pb, t.rsp)) =
      some (pairs [], some 0x0022) := by decide

/-- V-P: `PLUG_STATE`, also before case 4a. -/
theorem test_pick_plug_state :
    (after (block ⟨0, 0, 0⟩ (pairs [(0, 1)])) 0x508003).map (fun t => (t.pb, t.rsp, t.status)) =
      some (pairs [(0, 1)], none, 0x50800351) ∧
    (after (block ⟨0, 0, 0⟩ (pairs [(0, 1)])) 0x508000).map (fun t => (t.pb, t.rsp, t.status)) =
      some (pairs [(0, 1)], none, 0x50800051) := by decide

/-- V-P. -/
theorem test_rdplug :
    (after (block ⟨0, 0, 0⟩ (pairs [(0, 1)])) 0x700000).map (fun t => t.rsp) = some (some 0x0001) ∧
    (after (block ⟨0, 0, 0⟩ (pairs [(0, 1)])) 0x700019).map (fun t => t.rsp) = some (some 0x0019) := by decide

/-- V-E2: m at (16, 4, 25), both predicates and a wrap of rotor 2. -/
theorem test_enc_double_step : (after (block ⟨16, 4, 25⟩ Table.identity) 0x30000C).map (fun t => (t.off, t.rsp)) =
    some (⟨17, 5, 0⟩, some 17) := by decide

/-- V-E2: a at (0, 0, 0) with pair a–z. -/
theorem test_enc_plugged : (after (block ⟨0, 0, 0⟩ (pairs [(0, 25)])) 0x300000).map (fun t => (t.off, t.pb, t.rsp)) =
    some (⟨1, 0, 0⟩, pairs [(0, 25)], some 25) := by decide

/-- V-E1, the row (5, 7, 9): `pltxqjnkmfhbigvaeuycrozdsw`. -/
theorem test_core_row : allSyms.map (core? Config.default ⟨5, 7, 9⟩ Table.identity) =
    ([15, 11, 19, 23, 16, 9, 13, 10, 12, 5, 7, 1, 8, 6, 21, 0, 4, 20, 24, 2, 17, 14, 25, 3, 18, 22] : List Sym).map
      some := by decide

/-- V-E5: outputs 11 and 12 of the 26 repeats are both w (42_encode.md R154 promises no distinct outputs). -/
theorem test_core_repeats : core? Config.default ⟨11, 0, 0⟩ Table.identity 0 = some 22 ∧
    core? Config.default ⟨12, 0, 0⟩ Table.identity 0 = some 22 := by decide

/-- V-S: reaching the notch, carry, double step, rotor 2's own notch. -/
theorem test_stepping :
    stepOffsets Config.default ⟨15, 3, 0⟩ = ⟨16, 3, 0⟩ ∧ stepOffsets Config.default ⟨16, 3, 0⟩ = ⟨17, 4, 0⟩ ∧
    stepOffsets Config.default ⟨17, 4, 0⟩ = ⟨18, 5, 1⟩ ∧ stepOffsets Config.default ⟨16, 25, 25⟩ = ⟨17, 0, 25⟩ ∧
    stepOffsets Config.default ⟨0, 0, 21⟩ = ⟨1, 0, 21⟩ := by decide

/-- 40_rotor_stepping.md R101: the three default inverse tables. -/
theorem test_inverse_tables :
    allSyms.map (winv? Config.default 0) =
      ([20, 22, 24, 6, 0, 3, 5, 15, 21, 25, 1, 4, 2, 10, 12, 19, 7, 23, 18, 11, 17, 8, 13, 16, 14, 9] : List Sym).map
        some ∧
    allSyms.map (winv? Config.default 1) =
      ([0, 9, 15, 2, 25, 22, 17, 11, 5, 1, 3, 10, 14, 19, 24, 20, 16, 6, 4, 13, 7, 23, 12, 8, 21, 18] : List Sym).map
        some ∧
    allSyms.map (winv? Config.default 2) =
      ([19, 0, 6, 1, 15, 2, 18, 3, 16, 4, 20, 5, 21, 13, 25, 7, 24, 8, 23, 9, 22, 11, 17, 10, 14, 12] : List Sym).map
        some := by decide

/-- P4: a faulted block stops, and a reset frees it. -/
theorem test_faulted_block :
    nextState? (step (faultedBlock.offer (.command 0x300000))) = none ∧
    (nextState? (step { faultedBlock with inbox := [.command 0x300000, .reset, .command 0x600000] })).map
      (fun t => (t.off, t.status, t.inbox)) = some (⟨0, 0, 0⟩, 0, [.command 0x600000]) := by decide

/-- P5: the lines `PLUG y, z` and `ENCS "hello"` with a comment, a blank line and `REWIND` by letter and by number. -/
theorem test_assembler :
    assemble "PLUG y, z ; pair\n\nENCS \"hello\"\nREWIND 16, d, 0\nPICK #3, c".toList =
      some [0x500018, 0x508319, 0x300007, 0x300004, 0x30000B, 0x30000B, 0x30000E, 0x400070, 0x508043] ∧
    assemble "ENC #26".toList = none ∧ assemble "ENC A".toList = none ∧ assemble "RDOFF a".toList = none := by decide

/-! ### Witnesses: the hypotheses of each statement can be met -/

theorem reset_legal : State.reset.Legal :=
  ⟨by decide, by decide, .inl rfl⟩

theorem identity_involutive : Involutive Table.identity := by decide

/-- DecodeOfEncodeIsInstr, EncodeOfDecodeIsWord, IllegalOpcodesFault (decoded words of each format). -/
theorem witness_codec :
    (Instr.rstoff 25 25 25).wf = true ∧ decode 0x508319 = .ok (.pick 25 (some 24)) ∧
    decode 0x100000 = .ok .mkrot ∧ decode 0x300019 = .ok (.enc 25) ∧ decode 0x406739 = .ok (.rstoff 25 25 25) ∧
    decode 0x500019 = .ok (.pick 25 none) := ⟨by decide, rfl, rfl, rfl, rfl, rfl⟩

/-- IllegalOpcodesFault: `OP` 0 and, at the boundary, 8. -/
theorem witness_illegal : (0x0FFFFF : Cmd).toNat / 1048576 = 0 ∧ 8 ≤ (0x800000 : Cmd).toNat / 1048576 := by decide

/-- DecodeChecksInOrder, StepRunsDecodedCommand, StepTakesDecodeFault (each decode cause), StepOnAnyEncodedCommand. -/
theorem witness_step :
    State.reset.cfg.wf = true ∧ State.reset.faulted = false ∧
    (State.reset.offer (.command 0x30001A)).inbox = .command 0x30001A :: [] ∧
    decode 0x300019 = .ok (.enc 25) ∧ decode 0x800000 = .error .illegalOp ∧ decode 0x110000 = .error .reservedNz ∧
    decode 0x30001A = .error .letterRange ∧ decode 0x40001A = .error .offsetRange :=
  ⟨by decide, by decide, rfl, rfl, rfl, rfl, rfl, rfl⟩

/-- FaultedBlockLeavesOnlyByReset: with no reset coming, and with one behind a command. -/
theorem witness_faulted :
    faultedBlock.cfg.wf = true ∧ faultedBlock.faulted = true ∧ HostEvent.reset ∉ faultedBlock.inbox ∧
    (nextState? (step { faultedBlock with inbox := [.command 0, .reset] })).isSome = true := by decide

/-- ResetEventEffect: a faulted and an unfaulted block with a reset next. -/
theorem witness_reset_event :
    (faultedBlock.offer .reset).cfg.wf = true ∧ (faultedBlock.offer .reset).inbox = .reset :: [] ∧
    (State.reset.offer .reset).inbox = .reset :: [] := by decide

/-- NothingSentNothingChanges. -/
theorem witness_idle : State.reset.cfg.wf = true ∧ State.reset.faulted = false ∧ State.reset.inbox = [] := by decide

/-- EveryAcceptedCommandEnds, InitIsSoftwareReset: a legal block that is not faulted. -/
theorem witness_legal : State.reset.Legal ∧ State.reset.faulted = false := ⟨reset_legal, by decide⟩

/-- MalformedConfigRunsNothing. -/
theorem witness_config :
    rawDefault.build = some Config.default ∧ Config.default.wf = true ∧
    ({ State.reset with cfg := doubled } : State).cfg.wf = false := by decide

/-- StepKeepsConfiguration, StepKeepsStateLegal: a legal state with a next state. -/
theorem witness_step_next : ∃ t, State.reset.Legal ∧ step State.reset = .next t := ⟨_, reset_legal, rfl⟩

/-- InverseWiringIsUnique, PowerOnIsLegal. -/
theorem witness_config_wf : Config.default.wf = true ∧ tearing.wf = true := by decide

/-- SteppingRule, SteppingConsequences: each case of the predicates, and two configurations with the same first two
notches. -/
theorem witness_stepping :
    (16 : Sym) = Config.default.notchOf 0 ∧ (4 : Sym) = Config.default.notchOf 1 ∧
    ¬((0 : Sym) = Config.default.notchOf 0 ∨ (0 : Sym) = Config.default.notchOf 1) ∧
    tearing.notchOf 0 = Config.default.notchOf 0 ∧ tearing.notchOf 1 = Config.default.notchOf 1 := by decide

/-- DoubleStepAnomaly: (16, 3, 0). -/
theorem witness_double_step :
    (16 : Sym) = Config.default.notchOf 0 ∧ (3 : Sym) = sub26 (Config.default.notchOf 1) 1 := by decide

/-- DefaultStepPeriod: step counts at both ends of the range. -/
theorem witness_period : 0 < 1 ∧ 1 < 16900 ∧ 16899 < 16900 := by decide

/-- ThirdNotchIsUnread, NoHiddenState, ResponseExactlyWhenNoFault (its second clause), OnlyThreeCommandsWriteOffsets:
a command that answers a next state, and one that changes no offset. -/
theorem witness_exec : ∃ t u, exec (.enc 0) State.reset = .next t ∧ t.rsp = some 25 ∧ exec (.rdplug 0) State.reset = .next u :=
  ⟨_, _, rfl, by decide, rfl⟩

/-- MkrotZeroesOffsets, MkplugUnplugsAll, RdoffReadsOffsets: words of the command with another bit set. -/
theorem witness_format_n :
    (0x100001 : Cmd).toNat / 1048576 = 1 ∧ (0x100001 : Cmd).toNat % 1048576 ≠ 0 ∧
    (0x2F0000 : Cmd).toNat / 1048576 = 2 ∧ (0x2F0000 : Cmd).toNat % 1048576 ≠ 0 ∧
    (0x608000 : Cmd).toNat / 1048576 = 6 ∧ (0x608000 : Cmd).toNat % 1048576 ≠ 0 := by decide

/-- RstoffSetsBaseline: operands at the top of their range, each faulting field at its boundary, and a faulting step. -/
theorem witness_rstoff :
    (25 : Operand).toNat = (25 : Sym).val ∧ (0x406739 : Cmd).toNat = 0x400000 + 1024 * 25 + 32 * 25 + 25 ∧
    (0x40001A : Cmd).toNat / 1048576 = 4 ∧ (0x40001A : Cmd).toNat / 32768 % 32 = 0 ∧
    25 < (0x40001A : Cmd).toNat % 32 ∧ 25 < (0x400340 : Cmd).toNat / 32 % 32 ∧
    25 < (0x406800 : Cmd).toNat / 1024 % 32 ∧ (0x408000 : Cmd).toNat / 32768 % 32 ≠ 0 := by decide

/-- RstoffSetsBaseline: a faulting step. -/
theorem witness_rstoff_fault : ∃ t, State.reset.faulted = false ∧
    (State.reset.offer (.command 0x40001A)).inbox = .command 0x40001A :: [] ∧
    step (State.reset.offer (.command 0x40001A)) = .next t ∧ t.faulted = true :=
  ⟨_, by decide, rfl, rfl, by decide⟩

/-- PickFollowsProtocol: an unplugged, a plugged letter; nothing, an unplugged, a plugged letter pending; the decode
faults at their boundaries; the words. -/
theorem witness_pick :
    (1 : Operand).toNat = (1 : Sym).val ∧ (pairs []).rd 1 = 1 ∧ (pairs [(0, 1)]).rd 1 ≠ 1 ∧
    (pairs [(0, 1)]).rd 2 = 2 ∧ (pairs [(0, 1)]).rd 3 = 3 ∧ (2 : Sym) ≠ 3 ∧
    (0x500019 : Cmd).toNat = 0x500000 + (25 : Operand).toNat ∧
    (0x508339 : Cmd).toNat = 0x508000 + 32 * (25 : Operand).toNat + (25 : Operand).toNat := by decide

/-- PickFollowsProtocol: words with `RSV`, `C`, or `B` without `P`, at 1; then `A`, and `B` with `P`, at 26. -/
theorem witness_pick_words :
    (0x510000 : Cmd).toNat / 1048576 = 5 ∧ (0x510000 : Cmd).toNat / 65536 % 16 = 1 ∧
    (0x500400 : Cmd).toNat / 1024 % 32 = 1 ∧
    ((0x500020 : Cmd).toNat / 32768 % 2 = 0 ∧ (0x500020 : Cmd).toNat / 32 % 32 = 1) ∧
    (0x50001A : Cmd).toNat % 1048576 = 26 ∧
    ((0x508340 : Cmd).toNat / 32768 = 161 ∧ (0x508340 : Cmd).toNat / 32 % 1024 = 26) := by decide

/-- RdplugReadsEntry, EncStepsThenSubstitutes: operands, and words whose field is just out of range. -/
theorem witness_format_l :
    (25 : Operand).toNat = (25 : Sym).val ∧ (0x700019 : Cmd).toNat = 0x700000 + 25 ∧ (0x300019 : Cmd).toNat = 0x300000 + 25 ∧
    (0x70001A : Cmd).toNat / 1048576 = 7 ∧ (0x70001A : Cmd).toNat % 1048576 = 26 ∧
    (0x30001A : Cmd).toNat / 1048576 = 3 ∧ (0x30001A : Cmd).toNat % 1048576 = 26 ∧
    (0x700020 : Cmd).toNat / 32 % 32768 ≠ 0 ∧ (0x300020 : Cmd).toNat / 32 % 32768 ≠ 0 := by decide

/-- CommandsKeepInvolution, PickNeverSwapsPartners: a pick that changes an entry of an involutive plugboard. -/
theorem witness_pick_changes : ∃ t, Involutive (block ⟨0, 0, 0⟩ (pairs [(0, 1)])).pb ∧
    exec (.pick 1 none) (block ⟨0, 0, 0⟩ (pairs [(0, 1)])) = .next t ∧
    t.pb.rd 0 ≠ (block ⟨0, 0, 0⟩ (pairs [(0, 1)])).pb.rd 0 := ⟨_, by decide, rfl, by decide⟩

/-- PlugAndUnplugPseudos. -/
theorem witness_pseudos : (24 : Sym) ≠ 25 ∧ Table.identity.rd 24 = 24 ∧ Table.identity.rd 25 = 25 ∧
    (pairs [(24, 25)]).rd 24 = 25 := by decide

/-- CoreStages, CoreIsInvolution, CoreHasNoFixedPoint, CoreThroughAPlug, EncIsReciprocalAfterRewind,
MessageReciprocity. -/
theorem witness_core : Config.default.wf = true ∧ Involutive (pairs [(0, 1)]) ∧ (pairs [(0, 1)]).rd 0 = 1 ∧
    (pairs [(0, 1)]).rd 1 = 0 ∧ core? Config.default ⟨1, 0, 0⟩ (pairs [(0, 1)]) 0 = some 14 := by decide

/-- OnlyThreeCommandsWriteOffsets, OnlyTwoCommandsWritePlugboard: commands outside the lists answer a next state. -/
theorem witness_frames : (∃ t, exec (.pick 0 none) State.reset = .next t) ∧ ∃ t, exec (.enc 0) State.reset = .next t :=
  ⟨⟨_, rfl⟩, _, rfl⟩

/-- StatusWrittenOnlyByFaultAndReset, FaultsArePrecise: a step into the faulted state, and one out of it. -/
theorem witness_status :
    (∃ t, State.reset.faulted = false ∧ step (State.reset.offer (.command 0)) = .next t ∧ t.faulted = true ∧
      t.status ≠ State.reset.status) ∧
    ∃ t, step (faultedBlock.offer .reset) = .next t ∧ t.status ≠ faultedBlock.status :=
  ⟨⟨_, by decide, rfl, by decide, by decide⟩, _, rfl, by decide⟩

/-- ResponseExactlyWhenNoFault: a command that responds. -/
theorem witness_response : ∃ t, State.reset.faulted = false ∧ step (State.reset.offer (.command 0x600000)) = .next t ∧
    t.faulted = false ∧ t.rsp = some 0 := ⟨_, by decide, rfl, by decide, by decide⟩

/-- IdempotentCommands: each clause's command answers a next state. -/
theorem witness_idempotent : (∃ t, exec .rdoff State.reset = .next t) ∧
    (25 : Operand).toNat < 26 ∧ (∃ t, exec (.rdplug 25) State.reset = .next t) ∧
    (∃ t, exec .mkrot State.reset = .next t) ∧ (∃ t, exec .mkplug State.reset = .next t) ∧
    (∃ t, exec (.rstoff 25 0 0) State.reset = .next t) ∧ ∃ t, exec (.enc 25) State.reset = .next t :=
  ⟨⟨_, rfl⟩, by decide, ⟨_, rfl⟩, ⟨_, rfl⟩, ⟨_, rfl⟩, ⟨_, rfl⟩, _, rfl⟩

/-- EncStepsThenSubstitutes: a faulting step for each of its two faults, `CMD[19:5]` at 1 and the letter at 26. -/
theorem witness_enc_fault :
    (0x300020 : Cmd).toNat / 1048576 = 3 ∧ (0x300020 : Cmd).toNat / 32 % 32768 = 1 ∧
    (0x30001A : Cmd).toNat / 1048576 = 3 ∧ (0x30001A : Cmd).toNat % 32 = 26 ∧
    State.reset.cfg.wf = true ∧ State.reset.faulted = false ∧
    (State.reset.offer (.command 0x300020)).inbox = .command 0x300020 :: [] ∧
    (nextState? (step (State.reset.offer (.command 0x30001A)))).map (fun t => (t.off, t.status)) =
      some (⟨0, 0, 0⟩, 0x30001A31) := by decide

/-- FaultKeepsEarlierEffects: after PLUG a, b a word of each decode cause, and one that picks with the plugged letter a. -/
theorem witness_fault_after_commands :
    State.reset.cfg.wf = true ∧ State.reset.faulted = false ∧
    (transcript [.pick 0 none, .pick 1 (some 0)] State.reset).map (fun r => (r.1, r.2.pb.rd 0)) = some ([0x20, 0], 1) ∧
    decode 0x508003 = .ok (.pick 3 (some 0)) ∧ (0 : Operand).toNat = (0 : Sym).val ∧ (1 : Sym) ≠ 0 ∧
    decode 0x000000 = .error .illegalOp ∧ decode 0x100001 = .error .reservedNz ∧
    decode 0x30001A = .error .letterRange ∧ decode 0x40001A = .error .offsetRange :=
  ⟨by decide, by decide, by decide, rfl, rfl, by decide, rfl, rfl, rfl, rfl⟩

/-- V-P, row 7, after the commands that make its pair: the fault keeps the pair, and the word behind it is not run. -/
theorem test_fault_after_commands :
    (nextState? (Host.Core.run Sys2Proof.core 3 { State.reset with
      inbox := [.command 0x500000, .command 0x508001, .command 0x508003, .command 0x200000] })).map
      (fun t => (t.pb.rd 0, t.status, t.rsp, t.inbox)) = some (1, 0x50800351, none, [.command 0x200000]) := by decide

/-- CommandsTakeEffectInOrder: two commands with their responses. -/
theorem witness_in_order : State.reset.cfg.wf = true ∧ State.reset.faulted = false ∧
    (transcript [.rstoff 1 2 3, .rdoff] State.reset).map Prod.fst = some [0, 0x0C41] := by decide

/-- NoHiddenState: two different states with the same configuration, offsets and plugboard. -/
theorem witness_hidden : ∃ s' t, s' ≠ State.reset ∧ s'.cfg = State.reset.cfg ∧ s'.off = State.reset.off ∧
    s'.pb = State.reset.pb ∧ exec .rdoff State.reset = .next t :=
  ⟨faultedBlock, _, by decide, rfl, rfl, rfl, rfl⟩

/-- ReachablePlugboardIsInvolution: a run of two steps from power-on. -/
theorem witness_run : ∃ t, Config.default.wf = true ∧
    Host.Core.run Sys2Proof.core 2 { State.powerOn Config.default with inbox := [.command 0x500000, .reset] } =
      .next t := ⟨_, by decide, rfl⟩

/-- PassedBackSelectionStaysUnplugged: a session with a letter pending. -/
theorem witness_session : Session.Ok ⟨State.reset, some 0⟩ := ⟨reset_legal, by decide, by decide⟩

/-- AssemblerEmitsOnlyLegalWords. -/
theorem witness_assembler : assemble "RDOFF".toList = some [0x600000] := by decide

end Sys2Proof.Machine.Tests
end

section
/-! PROOFS. 00_scope.md R11: `RawConfig.build` is the partial inverse of writing a configuration down as numbers, so it
accepts exactly what some well-formed configuration is written as. -/

namespace Sys2Proof

/-! ### Tables and configurations as the numbers a builder supplies -/

/-- The entries of a table as numbers, in order. -/
def Table.toNats (t : Table) : List Nat := t.toList.map Fin.val

/-- A configuration as the builder of the block supplies it; `RawConfig.build_eq_some_iff` ties it to the model. -/
def Config.toRaw (c : Config) : RawConfig :=
  { wiring := c.wiring.toList.map Table.toNats, notch := c.notch.toList.map Fin.val,
    teardownWhilePending := c.teardownWhilePending }

/-- The lists a vector is written as, element by element: `n` elements, each of them what some `b` is written as. -/
theorem exists_vector_map_eq_iff {α β : Type} {n : Nat} (write : β → α) (l : List α) :
    (∃ v : Vector β n, v.toList.map write = l) ↔ l.length = n ∧ ∀ a ∈ l, ∃ b, write b = a := by
  constructor
  · rintro ⟨v, rfl⟩
    simp
  · rintro ⟨hlen, h⟩
    obtain ⟨m, rfl⟩ : l ∈ Set.range (List.map write) := by rwa [Set.range_list_map]
    exact ⟨⟨m.toArray, by simpa using hlen⟩, rfl⟩

/-- A reader that inverts a writer does so on lists too. -/
theorem mapM_eq_some_iff_map_eq {α β : Type} {read : α → Option β} {write : β → α}
    (h : ∀ a b, read a = some b ↔ write b = a) (l : List α) (m : List β) :
    l.mapM read = some m ↔ m.map write = l := by
  induction l generalizing m with
  | nil => simp [eq_comm]
  | cons a l ih =>
    simp only [List.mapM_cons, Option.bind_eq_bind, Option.pure_def, Option.bind_eq_some_iff, h, ih, Option.some.injEq,
      List.map_eq_cons_iff]
    constructor
    · rintro ⟨b, hb, m', hm', rfl⟩
      exact ⟨b, m', rfl, hb, hm'⟩
    · rintro ⟨b, m', rfl, hb, hm'⟩
      exact ⟨b, hb, m', hm', rfl⟩

theorem symOfNat?_eq_some_iff (n : Nat) (x : Sym) : symOfNat? n = some x ↔ x.val = n := by
  unfold symOfNat?
  split
  · simp [Fin.ext_iff, eq_comm]
  · next h => simpa using fun hx : x.val = n => h (hx ▸ x.isLt)

theorem tableOfNats?_eq_some_iff (l : List Nat) (t : Table) : tableOfNats? l = some t ↔ t.toNats = l := by
  rw [Table.toNats, ← mapM_eq_some_iff_map_eq symOfNat?_eq_some_iff, tableOfNats?]
  split
  · next h => simp [h]
  · next ys h =>
    rw [h]
    split
    · simp [← Vector.toList_inj]
    · next hlen => simpa using fun ht : ys = t.toList => hlen (by simp [ht])

/-- What `build` answers is the well-formed configuration that is written as its argument, if there is one. -/
theorem RawConfig.build_eq_some_iff (r : RawConfig) (c : Config) :
    r.build = some c ↔ c.wf = true ∧ c.toRaw = r := by
  have hwiring := mapM_eq_some_iff_map_eq tableOfNats?_eq_some_iff r.wiring
  have hnotch := mapM_eq_some_iff_map_eq symOfNat?_eq_some_iff r.notch
  constructor
  · unfold RawConfig.build
    split
    · next w0 w1 w2 n0 n1 n2 hw hn =>
      rw [hwiring] at hw
      rw [hnotch] at hn
      intro h
      obtain ⟨hwf, hc⟩ := Option.ite_none_right_eq_some.mp h
      cases hc
      exact ⟨hwf, congrArg₂ (RawConfig.mk · · r.teardownWhilePending) hw hn⟩
    · simp
  · rintro ⟨hwf, rfl⟩
    obtain ⟨w0, w1, w2, hw⟩ := List.length_eq_three.mp c.wiring.length_toList
    obtain ⟨n0, n1, n2, hn⟩ := List.length_eq_three.mp c.notch.length_toList
    obtain ⟨wiring, notch, teardown⟩ := c
    obtain rfl : wiring = #v[w0, w1, w2] := Vector.toList_inj.mp hw
    obtain rfl : notch = #v[n0, n1, n2] := Vector.toList_inj.mp hn
    rw [RawConfig.build, (hwiring [w0, w1, w2]).mpr rfl, (hnotch [n0, n1, n2]).mpr rfl]
    exact if_pos hwf

/-- The tables are the lists of 26 numbers in 0..25. -/
theorem Table.exists_toNats_eq_iff (l : List Nat) :
    (∃ t : Table, t.toNats = l) ↔ l.length = 26 ∧ ∀ n ∈ l, n < 26 := by
  simp [Table.toNats, exists_vector_map_eq_iff, Fin.exists_iff]

theorem Table.toList_eq_ofFn_rd (t : Table) : t.toList = List.ofFn t.rd := by
  apply List.ext_getElem
  · simp
  · intro i _ _
    simp only [Vector.getElem_toList, List.getElem_ofFn, Table.rd]

/-- A table is a bijection exactly when no number stands in it twice. -/
theorem Table.nodup_toNats_iff (t : Table) : t.toNats.Nodup ↔ Function.Bijective t.rd := by
  rw [Table.toNats, List.nodup_map_iff Fin.val_injective, t.toList_eq_ofFn_rd, List.nodup_ofFn,
    Finite.injective_iff_bijective]

/-- R11's check, read off the numbers supplied. -/
theorem Config.wf_iff_nodup (c : Config) : c.wf = true ↔ ∀ l ∈ c.toRaw.wiring, l.Nodup := by
  simp only [Config.wf_iff, Config.toRaw, List.forall_mem_map, Table.nodup_toNats_iff, Vector.mem_toList_iff,
    Vector.forall_mem_iff_forall_getElem, Config.w, Fin.forall_iff]

/-- The configurations are the three lists of 26 letter codes with three letter codes (00_scope.md R10). -/
theorem Config.exists_toRaw_eq_iff (r : RawConfig) : (∃ c : Config, c.toRaw = r) ↔
    (r.wiring.length = 3 ∧ ∀ l ∈ r.wiring, l.length = 26 ∧ ∀ n ∈ l, n < 26) ∧
      r.notch.length = 3 ∧ ∀ n ∈ r.notch, n < 26 := by
  have hw := exists_vector_map_eq_iff (n := 3) Table.toNats r.wiring
  have hn := exists_vector_map_eq_iff (n := 3) (Fin.val : Sym → Nat) r.notch
  simp only [Table.exists_toNats_eq_iff] at hw
  simp only [Fin.exists_iff, exists_prop, exists_eq_right] at hn
  rw [← hw, ← hn]
  constructor
  · rintro ⟨c, rfl⟩
    exact ⟨⟨c.wiring, rfl⟩, c.notch, rfl⟩
  · rintro ⟨⟨wiring, hw⟩, notch, hn⟩
    exact ⟨⟨wiring, notch, r.teardownWhilePending⟩, by simp [Config.toRaw, hw, hn]⟩

/-- What is built is written as 26 letter codes per wiring, and well formed when no wiring repeats one. -/
theorem RawConfig.isSome_build_iff (r : RawConfig) :
    r.build.isSome = true ↔ (∃ c : Config, c.toRaw = r) ∧ ∀ l ∈ r.wiring, l.Nodup := by
  simp only [Option.isSome_iff_exists, RawConfig.build_eq_some_iff, Config.wf_iff_nodup]
  constructor
  · rintro ⟨c, hnodup, rfl⟩
    exact ⟨⟨c, rfl⟩, hnodup⟩
  · rintro ⟨⟨c, rfl⟩, hnodup⟩
    exact ⟨c, hnodup, rfl⟩

/-- Settles O15: a build succeeds exactly on what some well-formed configuration is written as; the reflector is
bijective because it is an involution. -/
theorem buildAcceptsExactlyWellFormed : Obligations.BuildAcceptsExactlyWellFormed := by
  refine ⟨fun r => ?_, Function.Involutive.bijective reflector_involutive,
    fun x => ⟨reflector_involutive x, reflector_ne x⟩⟩
  rw [RawConfig.isSome_build_iff, Config.exists_toRaw_eq_iff]
  simp only [imp_and, forall_and]
  tauto

end Sys2Proof
end

section
/-! PROOFS. 10_state.md R32 and R39: the reflector's thirteen pairs, and the values at reset. -/

namespace Sys2Proof

/-- Settles O18: each pair is looked up in one direction; the other one follows because the reflector is an
involution. -/
theorem reflectorPairs : Obligations.ReflectorPairs := by
  refine ⟨fun p hp => ?_, fun x => ⟨reflector_involutive x, reflector_ne x⟩⟩
  have hfst : reflector.rd p.1 = p.2 := by
    fin_cases hp <;> rfl
  exact ⟨hfst, ((Function.Involutive.eq_iff reflector_involutive).mp hfst).symm⟩

namespace Machine

/-- `State.reset` is a power-on state, so it is read by the lemmas about `State.powerOn`. -/
theorem State.reset_eq_powerOn : State.reset = State.powerOn Config.default := rfl

/-- Settles O12: the start state and the state after a reset both hold what a power-on state holds, and a reset keeps
the configuration. -/
theorem resetStateValues : Obligations.ResetStateValues := by
  constructor
  · rw [State.reset_eq_powerOn]
    exact ⟨State.powerOn_off _, fun k => by rw [State.powerOn_pb, Table.rd_identity], State.powerOn_status _⟩
  · intro s rest
    exact ⟨s.applyReset_off rest, fun k => by rw [State.applyReset_pb, Table.rd_identity], s.applyReset_status rest,
      s.applyReset_cfg rest⟩

end Machine

end Sys2Proof
end

section
/-! PROOFS. 30_encoding.md R61, R62, R66: the fields of an encoded command are the ones it was made of, so decoding
gives a well-formed command back. -/

namespace Sys2Proof

/-! ### The fields of an encoded command -/

section Fields

variable (op : BitVec 4) (p : BitVec 1) (c b a : Operand)

@[simp] theorem cmdOp_encodeFields : cmdOp (encodeFields op p c b a) = op := by
  apply BitVec.eq_of_toNat_eq
  rw [cmdOp_toNat, encodeFields_toNat]
  omega

@[simp] theorem cmdRsv_encodeFields : cmdRsv (encodeFields op p c b a) = 0#4 := by
  apply BitVec.eq_of_toNat_eq
  rw [cmdRsv_toNat, encodeFields_toNat, BitVec.toNat_ofNat]
  omega

@[simp] theorem cmdP_encodeFields : cmdP (encodeFields op p c b a) = p := by
  apply BitVec.eq_of_toNat_eq
  rw [cmdP_toNat, encodeFields_toNat]
  omega

@[simp] theorem cmdC_encodeFields : cmdC (encodeFields op p c b a) = c := by
  apply BitVec.eq_of_toNat_eq
  rw [cmdC_toNat, encodeFields_toNat]
  omega

@[simp] theorem cmdB_encodeFields : cmdB (encodeFields op p c b a) = b := by
  apply BitVec.eq_of_toNat_eq
  rw [cmdB_toNat, encodeFields_toNat]
  omega

@[simp] theorem cmdA_encodeFields : cmdA (encodeFields op p c b a) = a := by
  apply BitVec.eq_of_toNat_eq
  rw [cmdA_toNat, encodeFields_toNat]
  omega

end Fields

/-! ### The checks of the formats -/

/-- A word of format N passes its check. -/
@[simp] theorem decodeN_encodeFields (op : BitVec 4) (i : Instr) :
    decodeN (encodeFields op 0#1 0#5 0#5 0#5) i = .ok i := by
  have hlow : (encodeFields op 0#1 0#5 0#5 0#5).extractLsb' 0 16 = 0#16 := by
    apply BitVec.eq_of_toNat_eq
    simp only [BitVec.extractLsb'_toNat, encodeFields_toNat, BitVec.toNat_ofNat, Nat.shiftRight_zero]
    omega
  simp [decodeN, hlow]

/-- A word of format L passes its check and gives its letter. -/
theorem decodeL_encodeFields (op : BitVec 4) {a : Operand} (ha : inRange a = true) :
    decodeL (encodeFields op 0#1 0#5 0#5 a) = .ok a := by
  have hunused : (encodeFields op 0#1 0#5 0#5 a).extractLsb' 5 11 = 0#11 := by
    apply BitVec.eq_of_toNat_eq
    simp only [BitVec.extractLsb'_toNat, encodeFields_toNat, BitVec.toNat_ofNat, Nat.shiftRight_eq_div_pow]
    omega
  simp [decodeL, hunused, ha]

/-- A word with an `OP` of 1 to 7 and no reserved bit is decoded by its format. -/
theorem decode_encodeFields {op : BitVec 4} (hlo : op.toNat ≠ 0) (hhi : op.toNat < 8) (p : BitVec 1)
    (c b a : Operand) :
    decode (encodeFields op p c b a) = decodeOperands (encodeFields op p c b a) := by
  simp [decode, hlo, hhi]

theorem Operand.ok_eq_inRange (a : Operand) : Operand.ok a = inRange a := rfl

/-- Decoding inverts encoding on the well-formed commands (30_encoding.md R66). -/
theorem decode_encode {i : Instr} (h : i.wf = true) : decode (encode i) = .ok i := by
  cases i with
  | mkrot => simp [encode, decode_encodeFields, decodeOperands]
  | mkplug => simp [encode, decode_encodeFields, decodeOperands]
  | rdoff => simp [encode, decode_encodeFields, decodeOperands]
  | enc a =>
    simp only [Instr.wf, Operand.ok_eq_inRange] at h
    simp [encode, decode_encodeFields, decodeOperands, decodeL_encodeFields, h, Except.map]
  | rdplug a =>
    simp only [Instr.wf, Operand.ok_eq_inRange] at h
    simp [encode, decode_encodeFields, decodeOperands, decodeL_encodeFields, h, Except.map]
  | rstoff a b c =>
    simp only [Instr.wf, Operand.ok_eq_inRange] at h
    simp [encode, decode_encodeFields, decodeOperands, decodeT, h]
  | pick a pending =>
    cases pending with
    | none =>
      simp only [Instr.wf, Operand.ok_eq_inRange] at h
      simp [encode, decode_encodeFields, decodeOperands, decodeS, h]
    | some c =>
      simp only [Instr.wf, Operand.ok_eq_inRange, Bool.and_eq_true] at h
      simp [encode, decode_encodeFields, decodeOperands, decodeS, h]

end Sys2Proof
end

section
/-! PROOFS. 20_memory.md R50: a command that responds has legal operands and leaves the block as able to run the next
one as before, so offering words one after another is executing their commands one after another. -/

namespace Sys2Proof.Machine

/-! ### A command that responds -/

theorem Operand.ok_of_toNat_eq {a : Operand} {x : Sym} (h : a.toNat = x.val) : Operand.ok a = true := by
  simp only [Operand.ok, decide_eq_true_eq]
  omega

/-- Only a command with legal operands responds: any other takes a fault (60_exceptions.md R203; log entry 10). -/
theorem wf_of_exec_responds {i : Instr} {s t : State} {r : Rsp} (h : exec i s = .next t) (hr : t.rsp = some r) :
    i.wf = true := by
  cases i with
  | mkrot | mkplug | rdoff => rfl
  | enc a =>
    obtain ⟨_, rfl⟩ | ⟨x, y, ha, _, _⟩ := execEnc_next h
    · simp at hr
    · exact Operand.ok_of_toNat_eq ha
  | rstoff a b c =>
    obtain ⟨_, rfl⟩ | ⟨o, ha, hb, hc, _⟩ := execRstoff_next h
    · simp at hr
    · simp [Instr.wf, Operand.ok_of_toNat_eq ha, Operand.ok_of_toNat_eq hb, Operand.ok_of_toNat_eq hc]
  | pick a p =>
    obtain ⟨_, rfl⟩ | ⟨x, q, ha, rfl, _⟩ := execPick_next h
    · simp at hr
    · cases q with
      | none => exact Operand.ok_of_toNat_eq ha
      | some y => simp [Instr.wf, Operand.ok_of_toNat_eq ha, Operand.ok_of_toNat_eq (symBits_toNat y)]
  | rdplug a =>
    obtain ⟨_, rfl⟩ | ⟨k, ha, _⟩ := execRdplug_next h
    · simp at hr
    · exact Operand.ok_of_toNat_eq ha

/-- A command that responds writes neither the configuration nor `STATUS`. -/
theorem cfg_status_of_exec_responds {i : Instr} {s t : State} {r : Rsp} (h : exec i s = .next t)
    (hr : t.rsp = some r) : t.cfg = s.cfg ∧ t.status = s.status := by
  obtain ⟨c, rfl⟩ | ⟨o, pb, r', rfl, _, _⟩ := exec_next h
  · simp at hr
  · simp

/-- Offered the word of a command that responds, the block makes its effect in one step, and the events behind it are
still to come. -/
theorem step_encode {i : Instr} {s t : State} {r : Rsp} (hwf : s.cfg.wf = true) (hf : s.faulted = false)
    (h : exec i s = .next t) (hr : t.rsp = some r) (l : List HostEvent) :
    step { s with inbox := .command (encode i) :: l } = .next { t with inbox := l } := by
  rw [step_command (s := { s with inbox := .command (encode i) :: l }) hwf hf rfl, runCommand,
    decode_encode (wf_of_exec_responds h hr)]
  exact exec_with_inbox h l

/-! ### A list of commands -/

/-- The first command of a list that responds has a next state and a response, and the others respond from there. -/
theorem transcript_cons_eq_some {i : Instr} {is : List Instr} {s u : State} {rs : List Rsp}
    (h : transcript (i :: is) s = some (rs, u)) :
    ∃ t r rs', exec i s = .next t ∧ t.rsp = some r ∧ transcript is t = some (rs', u) ∧ rs = r :: rs' := by
  rw [transcript] at h
  split at h
  · next t ht =>
    split at h
    · next r rs' u' hr hu =>
      cases h
      exact ⟨t, r, rs', ht, hr, hu, rfl⟩
    · cases h
  · cases h
  · cases h

/-- A run whose first step succeeds goes on from the state of that step. -/
theorem run_succ_of_step {s t : State} (h : step s = .next t) (n : Nat) :
    Host.Core.run Sys2Proof.core (n + 1) s = Host.Core.run Sys2Proof.core n t := by
  have hcore : Sys2Proof.core.step s = .next t := h
  simp only [Host.Core.run, hcore]

/-- Settles O48, by induction on the commands: one step runs the first of them, and leaves a block that is not faulted
with the words of the others coming. -/
theorem commandsTakeEffectInOrder : Obligations.CommandsTakeEffectInOrder := by
  intro s t is rs rest hwf hf h
  induction is generalizing s rs with
  | nil => cases h; rfl
  | cons i is ih =>
    obtain ⟨u, r, rs', hi, hr, his, _⟩ := transcript_cons_eq_some h
    obtain ⟨hcfg, hstatus⟩ := cfg_status_of_exec_responds hi hr
    have hwf' : u.cfg.wf = true := hcfg ▸ hwf
    have hf' : u.faulted = false := by rw [State.faulted, hstatus]; exact hf
    exact (run_succ_of_step (step_encode hwf hf hi hr _) is.length).trans (ih u rs' hwf' hf' his)

end Sys2Proof.Machine
end

section
/-! PROOFS. 30_encoding.md R66, R67: the checks of the decoder as conditions on the word's number, which of them fails
first, and the command of a word that passes them all. -/

namespace Sys2Proof

/-! ### The checks of R66 on the number of a word -/

/-- `OP` is 0x0 or 0x8 to 0xF. -/
abbrev OpIllegal (w : Cmd) : Prop :=
  w.toNat / 1048576 = 0 ∨ 8 ≤ w.toNat / 1048576

/-- A bit that every format reserves, or one that the format of `OP` does, is not 0. -/
abbrev ReservedSet (w : Cmd) : Prop :=
  let op := w.toNat / 1048576
  w.toNat / 65536 % 16 ≠ 0 ∨
  ((op = 1 ∨ op = 2 ∨ op = 6) ∧ w.toNat % 65536 ≠ 0) ∨
  ((op = 3 ∨ op = 7) ∧ w.toNat % 65536 / 32 ≠ 0) ∨
  (op = 4 ∧ w.toNat / 32768 % 2 ≠ 0) ∨
  (op = 5 ∧ (w.toNat / 1024 % 32 ≠ 0 ∨ (w.toNat / 32768 % 2 = 0 ∧ w.toNat / 32 % 32 ≠ 0)))

/-- A letter operand of format L or S is above 25. -/
abbrev LetterAbove (w : Cmd) : Prop :=
  let op := w.toNat / 1048576
  ((op = 3 ∨ op = 7) ∧ 25 < w.toNat % 32) ∨
  (op = 5 ∧ (25 < w.toNat % 32 ∨ (w.toNat / 32768 % 2 = 1 ∧ 25 < w.toNat / 32 % 32)))

/-- A baseline offset of format T is above 25. -/
abbrev OffsetAbove (w : Cmd) : Prop :=
  w.toNat / 1048576 = 4 ∧ (25 < w.toNat % 32 ∨ 25 < w.toNat / 32 % 32 ∨ 25 < w.toNat / 1024 % 32)

/-- The words that raise each fault, the checks before it having passed: `decode_eq_error_iff` ties it to the decoder. -/
def Faults (w : Cmd) : Cause → Prop
  | .illegalOp => OpIllegal w
  | .reservedNz => 1 ≤ w.toNat / 1048576 ∧ w.toNat / 1048576 ≤ 7 ∧ ReservedSet w
  | .letterRange => ¬ ReservedSet w ∧ LetterAbove w
  | .offsetRange => ¬ ReservedSet w ∧ OffsetAbove w
  | .plugState => False

/-! ### The decoder, its checks read as numbers (30_encoding.md R62, R66) -/

theorem bitVec_eq_zero_iff {n : Nat} (x : BitVec n) : x = 0#n ↔ x.toNat = 0 := by
  rw [BitVec.toNat_eq, BitVec.toNat_zero]

theorem decodeN_eq (w : Cmd) (i : Instr) :
    decodeN w i = if w.toNat % 65536 ≠ 0 then .error .reservedNz else .ok i := by
  simp [decodeN, bitVec_eq_zero_iff]

theorem decodeL_eq (w : Cmd) :
    decodeL w = if w.toNat % 65536 / 32 ≠ 0 then .error .reservedNz
      else if 25 < w.toNat % 32 then .error .letterRange else .ok (cmdA w) := by
  have hunused : (w.extractLsb' 5 11).toNat = w.toNat % 65536 / 32 := by
    rw [BitVec.extractLsb'_toNat, Nat.shiftRight_eq_div_pow]
    omega
  simp only [decodeL, ne_eq, BitVec.ofNat_eq_ofNat, bitVec_eq_zero_iff, hunused, inRange_iff, cmdA_toNat,
    ← Nat.not_le, ite_not]

theorem decodeT_eq (w : Cmd) :
    decodeT w = if w.toNat / 32768 % 2 ≠ 0 then .error .reservedNz
      else if 25 < w.toNat % 32 ∨ 25 < w.toNat / 32 % 32 ∨ 25 < w.toNat / 1024 % 32 then .error .offsetRange
      else .ok (.rstoff (cmdA w) (cmdB w) (cmdC w)) := by
  simp only [decodeT, ne_eq, BitVec.ofNat_eq_ofNat, bitVec_eq_zero_iff, Bool.and_eq_true, inRange_iff, cmdP_toNat,
    cmdA_toNat, cmdB_toNat, cmdC_toNat, ← Nat.not_le, ← not_and_or, ite_not, and_assoc]

theorem decodeS_eq (w : Cmd) :
    decodeS w =
      if w.toNat / 1024 % 32 ≠ 0 ∨ (w.toNat / 32768 % 2 = 0 ∧ w.toNat / 32 % 32 ≠ 0) then .error .reservedNz
      else if 25 < w.toNat % 32 ∨ (w.toNat / 32768 % 2 = 1 ∧ 25 < w.toNat / 32 % 32) then .error .letterRange
      else .ok (.pick (cmdA w) (if w.toNat / 32768 % 2 = 0 then none else some (cmdB w))) := by
  by_cases hp : w.toNat / 32768 % 2 = 0
  · by_cases hb : w.toNat / 32 % 32 = 0 <;>
      simp [decodeS, bitVec_eq_zero_iff, inRange, cmdP_toNat, cmdA_toNat, cmdB_toNat, cmdC_toNat, hp, hb]
  · have hp' : w.toNat / 32768 % 2 = 1 := by omega
    by_cases ha : 25 < w.toNat % 32
    · simp [decodeS, bitVec_eq_zero_iff, inRange, cmdP_toNat, cmdA_toNat, cmdC_toNat, hp', ha]
    · simp [decodeS, bitVec_eq_zero_iff, inRange, cmdP_toNat, cmdA_toNat, cmdB_toNat, cmdC_toNat, hp', ha,
        ← ite_not (25 < w.toNat / 32 % 32)]

/-- A word with an `OP` of 1 to 7 and `RSV` = 0 is decoded by its format (30_encoding.md R64, R66). -/
theorem decode_eq_decodeOperands {w : Cmd} (hop : ¬ OpIllegal w) (hrsv : w.toNat / 65536 % 16 = 0) :
    decode w = decodeOperands w := by
  rw [decode, cmdOp_toNat, if_neg hop, if_neg (by simpa [bitVec_eq_zero_iff, cmdRsv_toNat])]

theorem decodeOperands_formN {w : Cmd}
    (h : w.toNat / 1048576 = 1 ∨ w.toNat / 1048576 = 2 ∨ w.toNat / 1048576 = 6) :
    ∃ i, decodeOperands w = decodeN w i := by
  obtain h | h | h := h
  · exact ⟨.mkrot, by simp only [decodeOperands, cmdOp_toNat, h]⟩
  · exact ⟨.mkplug, by simp only [decodeOperands, cmdOp_toNat, h]⟩
  · exact ⟨.rdoff, by simp only [decodeOperands, cmdOp_toNat, h]⟩

theorem decodeOperands_formL {w : Cmd} (h : w.toNat / 1048576 = 3 ∨ w.toNat / 1048576 = 7) :
    ∃ f, decodeOperands w = (decodeL w).map f := by
  obtain h | h := h
  · exact ⟨.enc, by simp only [decodeOperands, cmdOp_toNat, h]⟩
  · exact ⟨.rdplug, by simp only [decodeOperands, cmdOp_toNat, h]⟩

theorem decodeOperands_formT {w : Cmd} (h : w.toNat / 1048576 = 4) : decodeOperands w = decodeT w := by
  simp only [decodeOperands, cmdOp_toNat, h]

theorem decodeOperands_formS {w : Cmd} (h : w.toNat / 1048576 = 5) : decodeOperands w = decodeS w := by
  simp only [decodeOperands, cmdOp_toNat, h]

/-! ### The fault that each check raises -/

theorem decode_of_opIllegal {w : Cmd} (h : OpIllegal w) : decode w = .error .illegalOp := by
  rw [decode, cmdOp_toNat, if_pos h]

theorem decode_of_reservedSet {w : Cmd} (hop : ¬ OpIllegal w) (h : ReservedSet w) : decode w = .error .reservedNz := by
  by_cases hrsv : w.toNat / 65536 % 16 = 0
  · rw [decode_eq_decodeOperands hop hrsv]
    obtain hne | ⟨hN, h⟩ | ⟨hL, h⟩ | ⟨hT, h⟩ | ⟨hS, h⟩ := h
    · exact absurd hrsv hne
    · obtain ⟨i, hi⟩ := decodeOperands_formN hN
      rw [hi, decodeN_eq, if_pos h]
    · obtain ⟨f, hf⟩ := decodeOperands_formL hL
      rw [hf, decodeL_eq, if_pos h, Except.map]
    · rw [decodeOperands_formT hT, decodeT_eq, if_pos h]
    · rw [decodeOperands_formS hS, decodeS_eq, if_pos h]
  · rw [decode, cmdOp_toNat, if_neg hop, if_pos (by simpa [bitVec_eq_zero_iff, cmdRsv_toNat])]

theorem decode_of_letterAbove {w : Cmd} (hr : ¬ ReservedSet w) (h : LetterAbove w) :
    decode w = .error .letterRange := by
  simp only [ReservedSet, not_or] at hr
  obtain ⟨hrsv, -, hunusedL, -, hunusedS⟩ := hr
  rw [decode_eq_decodeOperands (by omega) (by omega)]
  obtain ⟨hL, h⟩ | ⟨hS, h⟩ := h
  · obtain ⟨f, hf⟩ := decodeOperands_formL hL
    rw [hf, decodeL_eq, if_neg fun hne => hunusedL ⟨hL, hne⟩, if_pos h, Except.map]
  · rw [decodeOperands_formS hS, decodeS_eq, if_neg fun hne => hunusedS ⟨hS, hne⟩, if_pos h]

theorem decode_of_offsetAbove {w : Cmd} (hr : ¬ ReservedSet w) (h : OffsetAbove w) :
    decode w = .error .offsetRange := by
  simp only [ReservedSet, not_or] at hr
  obtain ⟨hrsv, -, -, hunusedT, -⟩ := hr
  obtain ⟨hT, h⟩ := h
  rw [decode_eq_decodeOperands (by omega) (by omega), decodeOperands_formT hT, decodeT_eq,
    if_neg fun hne => hunusedT ⟨hT, hne⟩, if_pos h]

theorem decode_of_faults {w : Cmd} {e : Cause} (h : Faults w e) : decode w = .error e := by
  cases e with
  | illegalOp => exact decode_of_opIllegal h
  | reservedNz =>
    obtain ⟨h1, h7, hr⟩ := h
    exact decode_of_reservedSet (by omega) hr
  | letterRange => exact decode_of_letterAbove h.1 h.2
  | offsetRange => exact decode_of_offsetAbove h.1 h.2
  | plugState => exact h.elim

/-! ### The words that pass every check -/

/-- The word `w` has the `OP` of the command, and in the fields of its format the command's operands, all legal
(30_encoding.md R62, R64): `decode_eq_ok_iff_readFrom` ties it to the decoder. -/
def Instr.ReadFrom (w : Cmd) : Instr → Prop
  | .mkrot => w.toNat / 1048576 = 1
  | .mkplug => w.toNat / 1048576 = 2
  | .enc x => w.toNat / 1048576 = 3 ∧ x.toNat = w.toNat % 32 ∧ w.toNat % 32 ≤ 25
  | .rstoff x y z => w.toNat / 1048576 = 4 ∧ x.toNat = w.toNat % 32 ∧ y.toNat = w.toNat / 32 % 32 ∧
      z.toNat = w.toNat / 1024 % 32 ∧ w.toNat % 32 ≤ 25 ∧ w.toNat / 32 % 32 ≤ 25 ∧ w.toNat / 1024 % 32 ≤ 25
  | .pick x none => w.toNat / 1048576 = 5 ∧ w.toNat / 32768 % 2 = 0 ∧ x.toNat = w.toNat % 32 ∧ w.toNat % 32 ≤ 25
  | .pick x (some y) => w.toNat / 1048576 = 5 ∧ w.toNat / 32768 % 2 = 1 ∧ x.toNat = w.toNat % 32 ∧
      y.toNat = w.toNat / 32 % 32 ∧ w.toNat % 32 ≤ 25 ∧ w.toNat / 32 % 32 ≤ 25
  | .rdoff => w.toNat / 1048576 = 6
  | .rdplug x => w.toNat / 1048576 = 7 ∧ x.toNat = w.toNat % 32 ∧ w.toNat % 32 ≤ 25

theorem Operand.ok_iff (a : Operand) : Operand.ok a = true ↔ a.toNat ≤ 25 := decide_eq_true_iff

/-- A word is a number made of its fields, so it encodes a well-formed command exactly when the fields are the command's
and every bit that its format does not use is 0. -/
theorem wf_and_encode_eq_iff (i : Instr) (w : Cmd) :
    i.wf = true ∧ encode i = w ↔ ¬ ReservedSet w ∧ i.ReadFrom w := by
  simp only [BitVec.toNat_eq, ReservedSet, Instr.ReadFrom]
  cases i with
  | mkrot | mkplug | rdoff =>
    simp only [Instr.wf, encode, encodeFields_toNat, BitVec.ofNat_eq_ofNat, BitVec.toNat_ofNat, true_and]
    omega
  | enc x | rdplug x =>
    simp only [Instr.wf, Operand.ok_iff, encode, encodeFields_toNat, BitVec.ofNat_eq_ofNat, BitVec.toNat_ofNat]
    omega
  | rstoff x y z =>
    simp only [Instr.wf, Operand.ok_iff, encode, encodeFields_toNat, BitVec.ofNat_eq_ofNat, BitVec.toNat_ofNat,
      Bool.and_eq_true]
    omega
  | pick x p =>
    cases p <;>
    · simp only [Instr.wf, Operand.ok_iff, encode, encodeFields_toNat, BitVec.ofNat_eq_ofNat, BitVec.toNat_ofNat,
        Bool.and_eq_true]
      omega

/-- A word that no check turns away is read as a command. -/
theorem exists_readFrom {w : Cmd} (hop : ¬ OpIllegal w) (hl : ¬ LetterAbove w) (ho : ¬ OffsetAbove w) :
    ∃ i : Instr, i.ReadFrom w := by
  have hcases : w.toNat / 1048576 = 1 ∨ w.toNat / 1048576 = 2 ∨ w.toNat / 1048576 = 3 ∨ w.toNat / 1048576 = 4 ∨
      w.toNat / 1048576 = 5 ∨ w.toNat / 1048576 = 6 ∨ w.toNat / 1048576 = 7 := by omega
  simp only [LetterAbove] at hl
  rw [OffsetAbove] at ho
  obtain h | h | h | h | h | h | h := hcases
  · exact ⟨.mkrot, h⟩
  · exact ⟨.mkplug, h⟩
  · exact ⟨.enc (cmdA w), h, cmdA_toNat w, by omega⟩
  · exact ⟨.rstoff (cmdA w) (cmdB w) (cmdC w), h, cmdA_toNat w, cmdB_toNat w, cmdC_toNat w, by omega⟩
  · by_cases hp : w.toNat / 32768 % 2 = 0
    · exact ⟨.pick (cmdA w) none, h, hp, cmdA_toNat w, by omega⟩
    · exact ⟨.pick (cmdA w) (some (cmdB w)), h, by omega, cmdA_toNat w, cmdB_toNat w, by omega⟩
  · exact ⟨.rdoff, h⟩
  · exact ⟨.rdplug (cmdA w), h, cmdA_toNat w, by omega⟩

/-- A word fails a check or is the word of a well-formed command. -/
theorem exists_faults_or_exists_encode_eq (w : Cmd) :
    (∃ e, Faults w e) ∨ ∃ i : Instr, i.wf = true ∧ encode i = w := by
  by_cases hop : OpIllegal w
  · exact .inl ⟨.illegalOp, hop⟩
  by_cases hr : ReservedSet w
  · exact .inl ⟨.reservedNz, by omega, by omega, hr⟩
  by_cases hl : LetterAbove w
  · exact .inl ⟨.letterRange, hr, hl⟩
  by_cases ho : OffsetAbove w
  · exact .inl ⟨.offsetRange, hr, ho⟩
  · obtain ⟨i, hi⟩ := exists_readFrom hop hl ho
    exact .inr ⟨i, (wf_and_encode_eq_iff i w).mpr ⟨hr, hi⟩⟩

/-! ### What decoding gives -/

theorem decode_eq_error_iff (w : Cmd) (e : Cause) : decode w = .error e ↔ Faults w e := by
  refine ⟨fun h => ?_, decode_of_faults⟩
  obtain ⟨e', he'⟩ | ⟨i, hi, rfl⟩ := exists_faults_or_exists_encode_eq w
  · cases h.symm.trans (decode_of_faults he')
    exact he'
  · cases h.symm.trans (decode_encode hi)

/-- The words that decode are the encodings of the well-formed commands: no bit is ignored (30_encoding.md R67). -/
theorem decode_eq_ok_iff (w : Cmd) (i : Instr) : decode w = .ok i ↔ i.wf = true ∧ encode i = w := by
  constructor
  · intro h
    obtain ⟨e, he⟩ | ⟨i', hi', rfl⟩ := exists_faults_or_exists_encode_eq w
    · cases h.symm.trans (decode_of_faults he)
    · cases h.symm.trans (decode_encode hi')
      exact ⟨hi', rfl⟩
  · rintro ⟨hi, rfl⟩
    exact decode_encode hi

theorem decode_eq_ok_iff_readFrom (w : Cmd) (i : Instr) : decode w = .ok i ↔ ¬ ReservedSet w ∧ i.ReadFrom w :=
  (decode_eq_ok_iff w i).trans (wf_and_encode_eq_iff i w)

namespace Machine

/-- A word that fails a check is a fault entry (60_exceptions.md R203). -/
theorem step_of_decode_error {s : State} (hwf : s.cfg.wf = true) (hf : s.faulted = false) {w : Cmd}
    {rest : List HostEvent} (hin : s.inbox = .command w :: rest) {e : Cause} (h : decode w = .error e) :
    step s = .next (State.takeFault { s with inbox := rest } e w) := by
  rw [step_command hwf hf hin, runCommand, h]

theorem step_of_decode_ok {s : State} (hwf : s.cfg.wf = true) (hf : s.faulted = false) {w : Cmd}
    {rest : List HostEvent} (hin : s.inbox = .command w :: rest) {i : Instr} (h : decode w = .ok i) :
    step s = exec i { s with inbox := rest } := by
  rw [step_command hwf hf hin, runCommand, h]

/-- Settles O3: the clauses about `decode` are `decode_eq_error_iff` and `decode_eq_ok_iff_readFrom`, case by case. -/
theorem decodeChecksInOrder : Obligations.DecodeChecksInOrder := by
  intro w
  refine ⟨decode_eq_error_iff w .illegalOp, decode_eq_error_iff w .reservedNz, decode_eq_error_iff w .letterRange,
    decode_eq_error_iff w .offsetRange, (decode_eq_error_iff w .plugState).mp, fun i => ?_,
    fun s rest hwf hf hin => ⟨fun e he => ⟨faultStatus e w, step_of_decode_error hwf hf hin he, ?_⟩,
      fun i hi => step_of_decode_ok hwf hf hin hi⟩⟩
  · rw [decode_eq_ok_iff_readFrom]
    cases i with
    | pick x p => cases p <;> exact Iff.rfl
    | _ => exact Iff.rfl
  · rw [faultStatus_toNat]
    cases e <;> rfl

end Machine

/-- Settles O4: a word that decodes has no reserved bit set, and its command tells which format's bits those are. For
PICK, format S fixes the unused bits field by field, and `P` is the bit above them. -/
theorem illegalOpcodesFault : Obligations.IllegalOpcodesFault := by
  refine ⟨decode_of_opIllegal (by decide), decode_of_opIllegal (by decide), fun w => decode_of_opIllegal,
    fun w i h => ?_⟩
  obtain ⟨hr, hi⟩ := (decode_eq_ok_iff_readFrom w i).mp h
  simp only [ReservedSet, not_or, not_and, not_not] at hr
  obtain ⟨hrsv, hN, hL, hT, hS⟩ := hr
  refine ⟨hrsv, ?_⟩
  cases i with
  | mkrot => exact hN (.inl hi)
  | mkplug => exact hN (.inr (.inl hi))
  | rdoff => exact hN (.inr (.inr hi))
  | enc x => exact hL (.inl hi.1)
  | rdplug x => exact hL (.inr hi.1)
  | rstoff x y z => exact hT hi.1
  | pick x p =>
    cases p <;>
    · obtain ⟨hop, hp, -⟩ := hi
      dsimp only
      omega

end Sys2Proof
end

section
/-! PROOFS. 30_encoding.md R69, R70: a command presents a response exactly when it does not fault, and a response holds
nothing but what its command defines. -/

namespace Sys2Proof.Machine

/-- A command faults or responds, and never both. -/
theorem faulted_iff_of_exec {i : Instr} {s t : State} (hf : s.faulted = false) (h : exec i s = .next t) :
    t.faulted = false ↔ t.rsp.isSome = true := by
  obtain ⟨c, rfl⟩ | ⟨o, pb, r, rfl, -, -⟩ := exec_next h
  · simp
  · exact iff_of_true hf rfl

theorem rspLetter_toNat_lt (y : Sym) : (rspLetter y).toNat < 32 := by
  rw [rspLetter_toNat]
  omega

theorem rspSelection_toNat_lt (sel : Option Sym) :
    (rspSelection sel).toNat < 64 ∧ ((rspSelection sel).toNat < 32 → rspSelection sel = 0) := by
  cases sel with
  | none => simp
  | some l =>
    rw [rspSelection_some_toNat]
    omega

theorem rspOffsets_toNat_lt (o : Offsets) : (rspOffsets o).toNat < 32768 := by
  rw [rspOffsets_toNat]
  omega

/-- Settles O46: a step on a word takes the fault it raises at decode, or does what its command does. -/
theorem responseExactlyWhenNoFault : Obligations.ResponseExactlyWhenNoFault := by
  constructor
  · intro s t w rest hf hin h
    obtain ⟨-, ⟨-, hnil, -⟩ | ⟨rest', -, -, hreset⟩ | ⟨w', rest', -, -, ⟨c, -, rfl⟩ | ⟨i, -, hi⟩⟩⟩ :=
      step_next h
    · simp [hin] at hnil
    · simp [hin, hf] at hreset
    · simp
    · exact faulted_iff_of_exec (s := s.dropEvent) hf hi
  · intro i s t r h hr
    cases i with
    | mkrot | mkplug => cases h; cases hr; rfl
    | rdoff => cases h; cases hr; exact rspOffsets_toNat_lt s.off
    | rstoff a b c =>
      obtain ⟨-, rfl⟩ | ⟨o, -, -, -, rfl⟩ := execRstoff_next h <;> cases hr
      rfl
    | enc a =>
      obtain ⟨-, rfl⟩ | ⟨x, y, -, -, rfl⟩ := execEnc_next h <;> cases hr
      exact rspLetter_toNat_lt y
    | rdplug a =>
      obtain ⟨-, rfl⟩ | ⟨k, -, rfl⟩ := execRdplug_next h <;> cases hr
      exact rspLetter_toNat_lt (s.pb.rd k)
    | pick a p =>
      obtain ⟨-, rfl⟩ | ⟨x, q, -, -, ⟨c, -, rfl⟩ | ⟨pb, sel, -, rfl⟩⟩ := execPick_next h <;> cases hr
      exact rspSelection_toNat_lt sel

end Sys2Proof.Machine
end

section
/-! PROOFS. 40_rotor_stepping.md R103, R110 to R112: one step of the rotors, and the three commands that only touch the
offsets. -/

namespace Sys2Proof.Machine

/-! ### STEP (40_rotor_stepping.md R102, R103) -/

theorem stepOffsets_o1 (c : Config) (o : Offsets) : (stepOffsets c o).o1 =
    if o.o0 = c.notchOf 0 ∨ o.o1 = c.notchOf 1 then add26 o.o1 1 else o.o1 := by
  simp [stepOffsets, atNotch]

theorem stepOffsets_o2 (c : Config) (o : Offsets) :
    (stepOffsets c o).o2 = if o.o1 = c.notchOf 1 then add26 o.o2 1 else o.o2 := by
  simp [stepOffsets, atNotch]

/-- STEP reads no more of a configuration than its first two notches. -/
theorem stepOffsets_congr {c c' : Config} (h0 : c'.notchOf 0 = c.notchOf 0) (h1 : c'.notchOf 1 = c.notchOf 1)
    (o : Offsets) : stepOffsets c' o = stepOffsets c o := by
  have hk0 : atNotch c' 0 o.o0 = atNotch c 0 o.o0 := by rw [atNotch, h0, atNotch]
  have hk1 : atNotch c' 1 o.o1 = atNotch c 1 o.o1 := by rw [atNotch, h1, atNotch]
  rw [stepOffsets, hk0, hk1, stepOffsets]

/-- Settles O20: each rotor's clause is its equation, with the notch predicate true or false. -/
theorem steppingRule : Obligations.SteppingRule := by
  intro c o k0 k1 n
  refine ⟨rfl, fun hk => ?_, fun hk => ?_, fun hk => ?_, fun hk => ?_, fun c' h0 h1 => stepOffsets_congr h0 h1 o⟩
  · exact congrArg Fin.val ((stepOffsets_o1 c o).trans (if_pos hk))
  · exact (stepOffsets_o1 c o).trans (if_neg hk)
  · exact congrArg Fin.val ((stepOffsets_o2 c o).trans (if_pos hk))
  · exact (stepOffsets_o2 c o).trans (if_neg hk)

/-! ### The words of format N (30_encoding.md R62) -/

/-- A word of format N has no bit to spare below its `OP`. -/
theorem decode_formN_of_low_ne_zero {w : Cmd}
    (hop : w.toNat / 1048576 = 1 ∨ w.toNat / 1048576 = 2 ∨ w.toNat / 1048576 = 6) (hlow : w.toNat % 1048576 ≠ 0) :
    decode w = .error .reservedNz := by
  refine decode_of_reservedSet (by omega) ?_
  by_cases hrsv : w.toNat / 65536 % 16 = 0
  · exact .inr (.inl ⟨hop, by omega⟩)
  · exact .inl hrsv

/-- Settles O25: the effect is the definition of `execMkrot`, and the words are those of format N. -/
theorem mkrotZeroesOffsets : Obligations.MkrotZeroesOffsets :=
  ⟨fun _ => rfl, decode_encode (i := .mkrot) rfl, fun _ hop => decode_formN_of_low_ne_zero (.inl hop)⟩

/-- Settles O27: the response is `rspOffsets` of the offsets, whose number is the sum of its three fields. -/
theorem rdoffReadsOffsets : Obligations.RdoffReadsOffsets :=
  ⟨fun s => ⟨rspOffsets s.off, rfl, rspOffsets_toNat s.off⟩, decode_encode (i := .rdoff) rfl,
    fun _ hop => decode_formN_of_low_ne_zero (.inr (.inr hop))⟩

/-! ### RSTOFF (40_rotor_stepping.md R111) -/

/-- RSTOFF with legal operands writes them to the offsets and responds. -/
theorem execRstoff_of_toNat_eq {a b c : Operand} {o : Offsets} (ha : a.toNat = o.o0.val) (hb : b.toNat = o.o1.val)
    (hc : c.toNat = o.o2.val) (s : State) : execRstoff a b c s = .next ((s.setOff o).respond rspNone) := by
  rw [execRstoff, symOf?_eq_some.mpr ha, symOf?_eq_some.mpr hb, symOf?_eq_some.mpr hc]

/-- The number of an RSTOFF word is made of its `OP` and its three operands. -/
theorem encode_rstoff_toNat (a b c : Operand) :
    (encode (.rstoff a b c)).toNat = 0x400000 + 1024 * c.toNat + 32 * b.toNat + a.toNat := by
  simp only [encode, encodeFields_toNat, BitVec.ofNat_eq_ofNat, BitVec.toNat_ofNat]

/-- A command that faults changes no offset (60_exceptions.md R203). -/
theorem off_of_exec_faults {i : Instr} {s t : State} (hf : s.faulted = false) (h : exec i s = .next t)
    (ht : t.faulted = true) : t.off = s.off := by
  obtain ⟨c, rfl⟩ | ⟨o, pb, r, rfl, -, -⟩ := exec_next h
  · rfl
  · exact absurd (hf.symm.trans ht) (by decide)

/-- A step that faults, on any word, changes no offset: not at decode, and not in the command. -/
theorem off_of_step_faults {s t : State} (hf : s.faulted = false) {w : Cmd} {rest : List HostEvent}
    (hin : s.inbox = .command w :: rest) (h : step s = .next t) (ht : t.faulted = true) : t.off = s.off := by
  obtain ⟨hwf, -⟩ := step_next h
  cases hd : decode w with
  | error e =>
    cases (step_of_decode_error hwf hf hin hd).symm.trans h
    rfl
  | ok i =>
    exact off_of_exec_faults (s := { s with inbox := rest }) hf ((step_of_decode_ok hwf hf hin hd).symm.trans h) ht

/-- Settles O26: an RSTOFF word with legal operands is the encoding of its command; for the others, `CMD[19:15]` is
`RSV` and `P`, both reserved in format T. -/
theorem rstoffSetsBaseline : Obligations.RstoffSetsBaseline := by
  refine ⟨fun s a b c o ha hb hc => ⟨execRstoff_of_toNat_eq ha hb hc s, fun w hw => ?_⟩, fun w hop =>
    ⟨fun hres => ?_, fun hres habove => ?_, fun s t rest hf hin h ht => off_of_step_faults hf hin h ht⟩⟩
  · have hwf : (Instr.rstoff a b c).wf = true := by
      simp [Instr.wf, Operand.ok_of_toNat_eq ha, Operand.ok_of_toNat_eq hb, Operand.ok_of_toNat_eq hc]
    exact (decode_eq_ok_iff w _).mpr ⟨hwf, BitVec.eq_of_toNat_eq ((encode_rstoff_toNat a b c).trans hw.symm)⟩
  · refine decode_of_reservedSet (by omega) ?_
    by_cases hrsv : w.toNat / 65536 % 16 = 0
    · exact .inr (.inr (.inr (.inl ⟨hop, by omega⟩)))
    · exact .inl hrsv
  · have hclear : ¬ ReservedSet w := by
      simp only [ReservedSet]
      omega
    exact decode_of_offsetAbove hclear ⟨hop, habove⟩

end Sys2Proof.Machine
end

section
/-! PROOFS. 41_plugboard.md R121 to R123, R126: one pick case by case, and the three commands that only touch the
plugboard. -/

namespace Sys2Proof.Machine

/-! ### MKPLUG (41_plugboard.md R121) -/

/-- Settles O28: the new plugboard is the identity table, and the words are those of format N. -/
theorem mkplugUnplugsAll : Obligations.MkplugUnplugsAll :=
  ⟨fun _ => ⟨Table.identity, rfl, Table.rd_identity⟩, decode_encode (i := .mkplug) rfl,
    fun _ hop => decode_formN_of_low_ne_zero (.inr (.inl hop))⟩

/-! ### The words of format L (30_encoding.md R62) -/

/-- Between `OP` and the letter, a word of format L has `RSV` and unused fields. -/
theorem reservedSet_formL_iff {w : Cmd} (hop : w.toNat / 1048576 = 3 ∨ w.toNat / 1048576 = 7) :
    ReservedSet w ↔ w.toNat / 32 % 32768 ≠ 0 := by
  simp only [ReservedSet]
  omega

theorem decode_formL_of_unused_ne_zero {w : Cmd} (hop : w.toNat / 1048576 = 3 ∨ w.toNat / 1048576 = 7)
    (hunused : w.toNat / 32 % 32768 ≠ 0) : decode w = .error .reservedNz :=
  decode_of_reservedSet (by omega) ((reservedSet_formL_iff hop).mpr hunused)

theorem decode_formL_of_letter_above {w : Cmd} (hop : w.toNat / 1048576 = 3 ∨ w.toNat / 1048576 = 7)
    (hunused : w.toNat / 32 % 32768 = 0) (habove : 25 < w.toNat % 32) : decode w = .error .letterRange :=
  decode_of_letterAbove (fun hr => (reservedSet_formL_iff hop).mp hr hunused) (.inl ⟨hop, habove⟩)

/-! ### RDPLUG (41_plugboard.md R123) -/

/-- RDPLUG of a letter presents its entry. -/
theorem execRdplug_of_toNat_eq {a : Operand} {k : Sym} (ha : a.toNat = k.val) (s : State) :
    execRdplug a s = .next (s.respond (rspLetter (s.pb.rd k))) := by
  rw [execRdplug, symOf?_eq_some.mpr ha]

/-- The number of an RDPLUG word is made of its `OP` and its letter. -/
theorem encode_rdplug_toNat (a : Operand) : (encode (.rdplug a)).toNat = 0x700000 + a.toNat := by
  simp [encode, encodeFields_toNat]

/-- Settles O30: the response is `rspLetter` of the entry, and the words are those of format L. -/
theorem rdplugReadsEntry : Obligations.RdplugReadsEntry := by
  refine ⟨fun s a k ha => ⟨⟨rspLetter (s.pb.rd k), execRdplug_of_toNat_eq ha s, rspLetter_toNat _⟩, fun w hw => ?_⟩,
    fun w hop => ⟨decode_formL_of_unused_ne_zero (.inr hop), decode_formL_of_letter_above (.inr hop)⟩⟩
  exact (decode_eq_ok_iff w _).mpr
    ⟨Operand.ok_of_toNat_eq ha, BitVec.eq_of_toNat_eq ((encode_rdplug_toNat a).trans hw.symm)⟩

/-! ### One pick (41_plugboard.md R122) -/

section Pick

variable {td : Bool} {pb : Table} {a c : Sym}

/-- Case 1: the first letter of a pair becomes pending. -/
theorem pickStep_none_of_unplugged (ha : pb.rd a = a) : pickStep td pb a none = .ok (pb, some a) := if_pos ha

/-- Case 2: picking a plugged letter with nothing pending unplugs its pair. -/
theorem pickStep_none_of_plugged (ha : pb.rd a ≠ a) : pickStep td pb a none = .ok (tearDown pb a, none) := if_neg ha

/-- A plugged pending letter is the fault, whatever letter is picked. -/
theorem pickStep_of_pending_plugged (hc : pb.rd c ≠ c) : pickStep td pb a (some c) = .error .plugState := if_pos hc

/-- Case 4a: picking the pending letter again changes nothing. -/
theorem pickStep_pending_self (hc : pb.rd c = c) : pickStep td pb c (some c) = .ok (pb, some c) := by
  simp [pickStep, hc]

/-- Case 3: a second unplugged letter completes the pair. -/
theorem pickStep_of_both_unplugged (hc : pb.rd c = c) (hne : a ≠ c) (ha : pb.rd a = a) :
    pickStep td pb a (some c) = .ok (connect pb c a, none) := by
  simp [pickStep, hc, hne, ha]

/-- Case 4b: a plugged letter leaves the selection pending, and its pair is torn down or not as the parameter says. -/
theorem pickStep_of_plugged_while_pending (hc : pb.rd c = c) (ha : pb.rd a ≠ a) :
    pickStep td pb a (some c) = .ok (if td then tearDown pb a else pb, some c) := by
  have hne : a ≠ c := fun h => ha (h ▸ hc)
  simp [pickStep, hc, hne, ha]

/-- The plugboard a pick leaves: as it was, or with the pair of the picked letter torn down, or with a pair made of two
letters that were unplugged. -/
theorem pickStep_table {p : Option Sym} {t : Table} {sel : Option Sym} (h : pickStep td pb a p = .ok (t, sel)) :
    t = pb ∨ t = tearDown pb a ∨ ∃ c, a ≠ c ∧ pb.rd c = c ∧ pb.rd a = a ∧ t = connect pb c a := by
  cases p with
  | none =>
    by_cases ha : pb.rd a = a
    · cases (pickStep_none_of_unplugged ha).symm.trans h
      exact .inl rfl
    · cases (pickStep_none_of_plugged ha).symm.trans h
      exact .inr (.inl rfl)
  | some c =>
    by_cases hc : pb.rd c = c
    · by_cases ha : pb.rd a = a
      · by_cases hne : a = c
        · subst hne
          cases (pickStep_pending_self hc).symm.trans h
          exact .inl rfl
        · cases (pickStep_of_both_unplugged hc hne ha).symm.trans h
          exact .inr (.inr ⟨c, hne, hc, ha, rfl⟩)
      · cases (pickStep_of_plugged_while_pending hc ha).symm.trans h
        cases td
        · exact .inl rfl
        · exact .inr (.inl rfl)
    · cases (pickStep_of_pending_plugged hc).symm.trans h

/-- A letter whose entry a pick changes is unplugged before it or after it (41_plugboard.md R126). -/
theorem pickStep_unplugged_before_or_after {p : Option Sym} {t : Table} {sel : Option Sym}
    (h : pickStep td pb a p = .ok (t, sel)) {k : Sym} (hk : t.rd k ≠ pb.rd k) : pb.rd k = k ∨ t.rd k = k := by
  obtain rfl | rfl | ⟨c, hne, hc, ha, rfl⟩ := pickStep_table h
  · exact absurd rfl hk
  · rw [rd_tearDown] at hk ⊢
    split at hk
    · next hpair => exact .inr (if_pos hpair)
    · exact absurd rfl hk
  · rw [rd_connect pb hne] at hk
    split at hk
    · next hkc => exact .inl (hkc ▸ hc)
    · split at hk
      · next hka => exact .inl (hka ▸ ha)
      · exact absurd rfl hk

end Pick

/-! ### PICK (41_plugboard.md R122, R126) -/

/-- A pending operand that is a letter code is that pending letter. -/
theorem some_eq_map_symBits {b : Operand} {c : Sym} (hb : b.toNat = c.val) : some b = (some c).map symBits :=
  congrArg some (eq_symBits hb)

/-- PICK with legal operands is one pick of their letters. -/
theorem execPick_of_letters {a : Operand} {p : Option Operand} {x : Sym} {q : Option Sym} (ha : a.toNat = x.val)
    (hp : p = q.map symBits) (s : State) : execPick a p s = pickLetters (encode (.pick a p)) x q s := by
  subst hp
  cases q <;> simp [execPick, symOf?_eq_some.mpr ha]

/-- A pick that does not fault writes its plugboard and presents its selection. -/
theorem exec_pick_of_ok {a : Operand} {p : Option Operand} {x : Sym} {q : Option Sym} {s : State} {t : Table}
    {sel : Option Sym} (ha : a.toNat = x.val) (hp : p = q.map symBits)
    (h : pickStep s.cfg.teardownWhilePending s.pb x q = .ok (t, sel)) :
    exec (.pick a p) s = .next { s with pb := t, rsp := some (rspSelection sel) } := by
  rw [exec, execPick_of_letters ha hp, pickLetters, h]
  rfl

/-- A pick that faults records its word. -/
theorem exec_pick_of_error {a : Operand} {p : Option Operand} {x : Sym} {q : Option Sym} {s : State} {e : Cause}
    (ha : a.toNat = x.val) (hp : p = q.map symBits)
    (h : pickStep s.cfg.teardownWhilePending s.pb x q = .error e) :
    exec (.pick a p) s = .next (s.takeFault e (encode (.pick a p))) := by
  rw [exec, execPick_of_letters ha hp, pickLetters, h]

/-- The number of a PICK word with nothing pending is made of its `OP` and its letter. -/
theorem encode_pick_none_toNat (a : Operand) : (encode (.pick a none)).toNat = 0x500000 + a.toNat := by
  simp [encode, encodeFields_toNat]

/-- The number of a PICK word with a letter pending is made of its `OP`, `P` and its two letters. -/
theorem encode_pick_some_toNat (a b : Operand) :
    (encode (.pick a (some b))).toNat = 0x508000 + 32 * b.toNat + a.toNat := by
  simp [encode, encodeFields_toNat]

/-- The bits that a word of format S does not use; `B` is one of them while `P` is 0. -/
theorem reservedSet_formS_iff {w : Cmd} (hop : w.toNat / 1048576 = 5) :
    ReservedSet w ↔ w.toNat / 65536 % 16 ≠ 0 ∨ w.toNat / 1024 % 32 ≠ 0 ∨
      (w.toNat / 32768 % 2 = 0 ∧ w.toNat / 32 % 32 ≠ 0) := by
  simp only [ReservedSet]
  omega

/-- PICK with nothing pending (41_plugboard.md R122, cases 1 and 2). -/
theorem exec_pick_nothing_pending (s : State) {a : Operand} {x : Sym} (ha : a.toNat = x.val) :
    ∃ (t : Table) (r : Rsp), exec (.pick a none) s = .next { s with pb := t, rsp := some r } ∧
      (s.pb.rd x = x → t = s.pb ∧ r.toNat = 32 + x.val) ∧
      (s.pb.rd x ≠ x → r.toNat = 0 ∧
        ∀ k : Sym, t.rd k = if k = x ∨ k = s.pb.rd x then k else s.pb.rd k) := by
  by_cases hx : s.pb.rd x = x
  · exact ⟨s.pb, _, exec_pick_of_ok ha rfl (pickStep_none_of_unplugged hx), fun _ => ⟨rfl, rspSelection_some_toNat x⟩,
      fun hne => absurd hx hne⟩
  · exact ⟨tearDown s.pb x, _, exec_pick_of_ok ha rfl (pickStep_none_of_plugged hx), fun h => absurd h hx,
      fun _ => ⟨rfl, rd_tearDown s.pb x⟩⟩

/-- PICK with an unplugged letter pending (41_plugboard.md R122, cases 4a, 3 and 4b). -/
theorem exec_pick_unplugged_pending (s : State) {a b : Operand} {x c : Sym} (ha : a.toNat = x.val)
    (hb : b.toNat = c.val) (hc : s.pb.rd c = c) :
    ∃ (t : Table) (r : Rsp), exec (.pick a (some b)) s = .next { s with pb := t, rsp := some r } ∧
      (x = c → t = s.pb ∧ r.toNat = 32 + c.val) ∧
      (x ≠ c → s.pb.rd x = x → r.toNat = 0 ∧
        ∀ k : Sym, t.rd k = if k = c then x else if k = x then c else s.pb.rd k) ∧
      (s.pb.rd x ≠ x → r.toNat = 32 + c.val ∧
        ∀ k : Sym, t.rd k =
          if s.cfg.teardownWhilePending = true ∧ (k = x ∨ k = s.pb.rd x) then k else s.pb.rd k) := by
  have hp := some_eq_map_symBits hb
  by_cases hxc : x = c
  · subst hxc
    exact ⟨s.pb, _, exec_pick_of_ok ha hp (pickStep_pending_self hc), fun _ => ⟨rfl, rspSelection_some_toNat x⟩,
      fun hne => absurd rfl hne, fun hx => absurd hc hx⟩
  by_cases hx : s.pb.rd x = x
  · exact ⟨connect s.pb c x, _, exec_pick_of_ok ha hp (pickStep_of_both_unplugged hc hxc hx), fun h => absurd h hxc,
      fun _ _ => ⟨rfl, rd_connect s.pb hxc⟩, fun hne => absurd hx hne⟩
  · refine ⟨_, _, exec_pick_of_ok ha hp (pickStep_of_plugged_while_pending hc hx), fun h => absurd h hxc,
      fun _ h => absurd h hx, fun _ => ⟨rspSelection_some_toNat c, fun k => ?_⟩⟩
    cases s.cfg.teardownWhilePending <;> simp [rd_tearDown]

/-- PICK with a plugged letter pending (41_plugboard.md R122). -/
theorem exec_pick_plugged_pending (s : State) {a b : Operand} {x c : Sym} (ha : a.toNat = x.val)
    (hb : b.toNat = c.val) (hc : s.pb.rd c ≠ c) :
    exec (.pick a (some b)) s = .next (s.takeFault .plugState (encode (.pick a (some b)))) :=
  exec_pick_of_error ha (some_eq_map_symBits hb) (pickStep_of_pending_plugged hc)

/-- Settles O29: the effects by the three states of the pending letter, then the words of format S. -/
theorem pickFollowsProtocol : Obligations.PickFollowsProtocol := by
  refine ⟨fun s a x => exec_pick_nothing_pending s, fun s a b x c => exec_pick_unplugged_pending s,
    fun s a b x c ha hb hc => ⟨_, exec_pick_plugged_pending s ha hb hc, ?_⟩,
    fun w hop => ⟨fun hr => decode_of_reservedSet (by omega) ((reservedSet_formS_iff hop).mpr hr),
      fun hr habove => decode_of_letterAbove (fun h => hr ((reservedSet_formS_iff hop).mp h)) (.inr ⟨hop, habove⟩)⟩,
    fun w a b ha hb => ⟨fun hw => ?_, fun hw => ?_⟩⟩
  · rw [faultStatus_toNat, encode_pick_some_toNat]
    rfl
  · exact (decode_eq_ok_iff w _).mpr
      ⟨(Operand.ok_iff a).mpr ha, BitVec.eq_of_toNat_eq ((encode_pick_none_toNat a).trans hw.symm)⟩
  · have hwf : (Instr.pick a (some b)).wf = true := by
      simp [Instr.wf, Operand.ok_iff, ha, hb]
    exact (decode_eq_ok_iff w _).mpr ⟨hwf, BitVec.eq_of_toNat_eq ((encode_pick_some_toNat a b).trans hw.symm)⟩

/-- Settles O32: a PICK that changes an entry did not fault, so it is one pick. No case needs the involution. -/
theorem pickNeverSwapsPartners : Obligations.PickNeverSwapsPartners := by
  intro a p s t k _ h hk
  obtain ⟨-, rfl⟩ | ⟨x, q, -, -, ⟨c, -, rfl⟩ | ⟨pb, sel, hpick, rfl⟩⟩ := execPick_next h
  · exact absurd rfl hk
  · exact absurd rfl hk
  · exact pickStep_unplugged_before_or_after hpick hk

end Sys2Proof.Machine
end

section
/-! PROOFS. 42_encode.md R141 to R152: CORE through the stages of its pseudocode, and ENC. -/

namespace Sys2Proof.Machine

/-! ### CORE stage by stage (42_encode.md R141 to R147) -/

/-- One backward stage, read off the wiring: the index whose entry is the stage's input, with the offset added
(42_encode.md R146). -/
theorem backward?_eq_some_iff_exists {c : Config} {i : Fin 3} (h : Function.Bijective (c.w i).rd) {o x y : Sym} :
    backward? c i o x = some y ↔ ∃ j, (c.w i).rd j = x ∧ add26 j o = y := by
  simp only [backward?, Option.map_eq_some_iff, winv?_eq_some h]

/-- The backward pass has a value exactly when each of its three stages, rotor 2 first, has one. -/
theorem backwardPass?_eq_some_iff_exists {c : Config} {o : Offsets} {x y : Sym} :
    backwardPass? c o x = some y ↔
      ∃ b2 b1, backward? c 2 o.o2 x = some b2 ∧ backward? c 1 o.o1 b2 = some b1 ∧ backward? c 0 o.o0 b1 = some y := by
  unfold backwardPass?
  cases backward? c 2 o.o2 x with
  | none => simp
  | some b2 => cases h1 : backward? c 1 o.o1 b2 <;> simp [h1]

/-- The stages of the backward pass of a well-formed configuration, each with the index it finds. -/
theorem backwardPass?_eq_some_iff_stages {c : Config} (h : c.wf = true) {o : Offsets} {x y : Sym} :
    backwardPass? c o x = some y ↔
      ∃ j2 j1 j0 : Sym, (c.w 2).rd j2 = x ∧ (c.w 1).rd j1 = add26 j2 o.o2 ∧ (c.w 0).rd j0 = add26 j1 o.o1 ∧
        add26 j0 o.o0 = y := by
  have hw := (Config.wf_iff c).mp h
  simp only [backwardPass?_eq_some_iff_exists, backward?_eq_some_iff_exists (hw _)]
  constructor
  · rintro ⟨_, _, ⟨j2, h2, rfl⟩, ⟨j1, h1, rfl⟩, j0, h0, hy⟩
    exact ⟨j2, j1, j0, h2, h1, h0, hy⟩
  · rintro ⟨j2, j1, j0, h2, h1, h0, hy⟩
    exact ⟨_, _, ⟨j2, h2, rfl⟩, ⟨j1, h1, rfl⟩, j0, h0, hy⟩

/-- Settles O34: the letters of the forward stages are the values of `forwardPass` on the way, and those of the
backward stages are the indices that the inverse wirings find. -/
theorem coreStages : Obligations.CoreStages := by
  intro c o pb x y hwf
  rw [core?, Option.map_eq_some_iff]
  simp only [backwardPass?_eq_some_iff_stages hwf]
  constructor
  · rintro ⟨_, ⟨j2, j1, j0, h2, h1, h0, rfl⟩, rfl⟩
    exact ⟨_, _, _, sub26 _ o.o0, sub26 _ o.o1, sub26 _ o.o2, j2, j1, j0, add26 j2 o.o2, add26 j1 o.o1, add26 j0 o.o0,
      rfl, rfl, rfl, rfl, rfl, rfl, h2, rfl, h1, rfl, h0, rfl, rfl⟩
  · rintro ⟨_, _, _, i0, i1, i2, j2, j1, j0, b2, b1, b0, hi0, rfl, hi1, rfl, hi2, rfl, h2, hb2, h1, hb1, h0, hb0, rfl⟩
    obtain rfl : i0 = sub26 (pb.rd x) o.o0 := Fin.ext hi0
    obtain rfl : i1 = sub26 _ o.o1 := Fin.ext hi1
    obtain rfl : i2 = sub26 _ o.o2 := Fin.ext hi2
    obtain rfl : b2 = add26 j2 o.o2 := Fin.ext hb2
    obtain rfl : b1 = add26 j1 o.o1 := Fin.ext hb1
    exact ⟨b0, ⟨j2, j1, j0, h2, h1, h0, (Fin.ext hb0).symm⟩, rfl⟩

/-! ### ENC (42_encode.md R150) -/

/-- CORE with an involutive plugboard gives no letter to itself, because the reflector does not (42_encode.md R152). -/
theorem core?_ne_some_self {c : Config} (h : c.wf = true) (o : Offsets) {pb : Table} (hpb : Involutive pb) (x : Sym) :
    core? c o pb x ≠ some x := by
  intro hx
  obtain ⟨z, hz, rfl⟩ := (core?_eq_some h).mp hx
  rw [hpb z] at hz
  exact reflector_ne _ hz.symm

/-- ENC of a letter that CORE has a value for steps the offsets and presents that value. -/
theorem exec_enc_of_core?_eq_some {s : State} {a : Operand} {x y : Sym} (ha : a.toNat = x.val)
    (hy : core? s.cfg (stepOffsets s.cfg s.off) s.pb x = some y) :
    exec (.enc a) s = .next { s with off := stepOffsets s.cfg s.off, rsp := some (rspLetter y) } := by
  simp only [exec, execEnc, symOf?_eq_some.mpr ha, hy]
  rfl

/-- The number of an ENC word is made of its `OP` and its letter. -/
theorem encode_enc_toNat (a : Operand) : (encode (.enc a)).toNat = 0x300000 + a.toNat := by
  simp [encode, encodeFields_toNat]

/-- A word that a check of the decoder turns away faults the block, and its offsets stay. -/
theorem exists_faulted_step_of_decode_error {s : State} (hwf : s.cfg.wf = true) (hf : s.faulted = false) {w : Cmd}
    {rest : List HostEvent} (hin : s.inbox = .command w :: rest) {e : Cause} (h : decode w = .error e) :
    ∃ t : State, step s = .next t ∧ t.faulted = true ∧ t.off = s.off :=
  ⟨_, step_of_decode_error hwf hf hin h, State.takeFault_faulted _ e w, rfl⟩

/-- Settles O38: the letter presented is the value of CORE, and the words are those of format L, which fault at
decode. -/
theorem encStepsThenSubstitutes : Obligations.EncStepsThenSubstitutes := by
  refine ⟨fun s a x ha hwf => ⟨?_, fun w hw => ?_⟩, fun w hop => ⟨decode_formL_of_unused_ne_zero (.inl hop),
    decode_formL_of_letter_above (.inl hop), fun s rest hwf hf hin hbad => ?_⟩⟩
  · obtain ⟨y, hy⟩ := core?_isSome hwf (stepOffsets s.cfg s.off) s.pb x
    exact ⟨y, rspLetter y, hy, rspLetter_toNat y, exec_enc_of_core?_eq_some ha hy,
      fun hpb hyx => core?_ne_some_self hwf _ hpb x (hyx ▸ hy)⟩
  · exact (decode_eq_ok_iff w _).mpr
      ⟨Operand.ok_of_toNat_eq ha, BitVec.eq_of_toNat_eq ((encode_enc_toNat a).trans hw.symm)⟩
  · by_cases hunused : w.toNat / 32 % 32768 = 0
    · have habove : 25 < w.toNat % 32 := hbad.resolve_left (not_not_intro hunused)
      exact exists_faulted_step_of_decode_error hwf hf hin (decode_formL_of_letter_above (.inl hop) hunused habove)
    · exact exists_faulted_step_of_decode_error hwf hf hin (decode_formL_of_unused_ne_zero (.inl hop) hunused)

end Sys2Proof.Machine
end

section
/-! PROOFS. 60_exceptions.md R201, R203: which faults a step can take, and that a fault keeps whatever the commands
before it have done. -/

namespace Sys2Proof.Machine

/-! ### The faults of a command with legal operands -/

/-- With legal operands, the one fault at execution is the `PLUG_STATE` of a PICK with a letter pending (60_exceptions.md
R201); any other command leaves the block faulted or not as it was. -/
theorem faulted_eq_or_plugState_of_exec {i : Instr} {s t : State} (hi : i.wf = true) (h : exec i s = .next t) :
    t.faulted = s.faulted ∨ (∃ a b, i = .pick a (some b)) ∧ t = s.takeFault .plugState (encode i) := by
  cases i with
  | mkrot | mkplug | rdoff => cases h; exact .inl rfl
  | enc a =>
    obtain ⟨ha, -⟩ | ⟨_, _, -, -, rfl⟩ := execEnc_next h
    · have := (Operand.ok_iff a).mp hi
      omega
    · exact .inl rfl
  | rstoff a b c =>
    obtain ⟨habc, -⟩ | ⟨_, -, -, -, rfl⟩ := execRstoff_next h
    · simp only [Instr.wf, Bool.and_eq_true, Operand.ok_iff] at hi
      omega
    · exact .inl rfl
  | rdplug a =>
    obtain ⟨ha, -⟩ | ⟨_, -, rfl⟩ := execRdplug_next h
    · have := (Operand.ok_iff a).mp hi
      omega
    · exact .inl rfl
  | pick a p =>
    obtain ⟨ha | ⟨b, rfl, hb⟩, -⟩ | ⟨x, q, -, rfl, ⟨c, hpick, rfl⟩ | ⟨_, _, -, rfl⟩⟩ := execPick_next h
    · cases p <;> simp only [Instr.wf, Bool.and_eq_true, Operand.ok_iff] at hi <;> omega
    · simp only [Instr.wf, Bool.and_eq_true, Operand.ok_iff] at hi
      omega
    · obtain ⟨rfl, b, rfl, -⟩ := pickStep_error hpick
      exact .inr ⟨⟨a, symBits b, rfl⟩, rfl⟩
    · exact .inl rfl

/-- Settles O45: of the steps from an unfaulted block, only a word turned away at decode and a PICK that raises
`PLUG_STATE` leave it faulted, and both are `State.takeFault`. -/
theorem faultsArePrecise : Obligations.FaultsArePrecise := by
  intro s t hf h ht
  have hne : t.faulted ≠ s.faulted := by simp [hf, ht]
  obtain ⟨-, ⟨-, -, rfl⟩ | ⟨rest, rfl, -, -⟩ | ⟨w, rest, -, hin, hw⟩⟩ := step_next h
  · exact absurd rfl hne
  · simp at ht
  refine ⟨w, rest, ?_⟩
  have hdrop : s.dropEvent = { s with inbox := rest } := by simp [State.dropEvent, hin]
  rw [hdrop] at hw
  obtain ⟨c, hc, rfl⟩ | ⟨i, hi, hexec⟩ := hw
  · exact ⟨c, hin, .inl hc, rfl⟩
  · obtain ⟨hwf, rfl⟩ := (decode_eq_ok_iff w i).mp hi
    obtain hsame | ⟨⟨a, b, rfl⟩, rfl⟩ := faulted_eq_or_plugState_of_exec hwf hexec
    · exact absurd hsame hne
    · exact ⟨.plugState, hin, .inr ⟨rfl, a, b, hi⟩, rfl⟩

/-! ### A fault after a list of commands -/

/-- A PICK word whose pending letter is plugged is a fault entry (41_plugboard.md R122, 60_exceptions.md R203). -/
theorem step_of_pending_plugged {s : State} (hwf : s.cfg.wf = true) (hf : s.faulted = false) {w : Cmd}
    {rest : List HostEvent} (hin : s.inbox = .command w :: rest) {a b : Operand} {k : Sym}
    (h : decode w = .ok (.pick a (some b))) (hb : b.toNat = k.val) (hk : s.pb.rd k ≠ k) :
    step s = .next (State.takeFault { s with inbox := rest } .plugState w) := by
  rw [step_of_decode_ok hwf hf hin h]
  obtain ⟨hi, rfl⟩ := (decode_eq_ok_iff w _).mp h
  simp only [Instr.wf, Bool.and_eq_true, Operand.ok_iff] at hi
  exact exec_pick_plugged_pending { s with inbox := rest } (x := ⟨a.toNat, by omega⟩) rfl hb hk

/-- Commands that all respond write neither the configuration nor `STATUS`. -/
theorem cfg_status_of_transcript {is : List Instr} {s t : State} {rs : List Rsp}
    (h : transcript is s = some (rs, t)) : t.cfg = s.cfg ∧ t.status = s.status := by
  induction is generalizing s rs with
  | nil => cases h; exact ⟨rfl, rfl⟩
  | cons i is ih =>
    obtain ⟨u, r, rs', hi, hr, his, -⟩ := transcript_cons_eq_some h
    obtain ⟨hcfg, hstatus⟩ := cfg_status_of_exec_responds hi hr
    obtain ⟨hcfg', hstatus'⟩ := ih his
    exact ⟨hcfg'.trans hcfg, hstatus'.trans hstatus⟩

/-- Settles O57: the commands run as O48 says and leave a block that is not faulted; the step after them is a fault
entry of the word behind them. -/
theorem faultKeepsEarlierEffects : Obligations.FaultKeepsEarlierEffects := by
  intro s t is rs w c rest hwf hf h hw
  obtain ⟨hcfg, hstatus⟩ := cfg_status_of_transcript h
  have hwf' : t.cfg.wf = true := hcfg ▸ hwf
  have hf' : t.faulted = false := by rw [State.faulted, hstatus]; exact hf
  have hfault : step { t with inbox := .command w :: rest } =
      .next (State.takeFault { t with inbox := rest } c w) := by
    obtain hc | ⟨rfl, a, b, k, hpick, hb, hk⟩ := hw
    · exact step_of_decode_error (s := { t with inbox := .command w :: rest }) hwf' hf' rfl hc
    · exact step_of_pending_plugged (s := { t with inbox := .command w :: rest }) hwf' hf' rfl hpick hb hk
  refine ⟨faultStatus c w, ?_, ?_⟩
  · have hrun := commandsTakeEffectInOrder s t is rs (.command w :: rest) hwf hf h
    exact (run_add hrun).trans (run_succ_of_step hfault 0)
  · rw [faultStatus_toNat]
    cases c <;> rfl

end Sys2Proof.Machine
end

section
/-! PROOFS. 70_reset_and_hazards.md R229: with a well-formed configuration every command has a next state, whatever its
operands, so a block that is not faulted is never stuck. -/

namespace Sys2Proof.Machine

/-! ### Every command has a next state -/

/-- A pick of letters writes the plugboard or takes a fault (41_plugboard.md R122). -/
theorem exists_pickLetters_eq_next (w : Cmd) (a : Sym) (p : Option Sym) (s : State) :
    ∃ t : State, pickLetters w a p s = .next t := by
  unfold pickLetters
  split <;> exact ⟨_, rfl⟩

theorem exists_execPick_eq_next (a : Operand) (p : Option Operand) (s : State) :
    ∃ t : State, execPick a p s = .next t := by
  unfold execPick
  split
  · exact exists_pickLetters_eq_next _ _ _ s
  · split
    · exact exists_pickLetters_eq_next _ _ _ s
    · exact ⟨_, rfl⟩
  · exact ⟨_, rfl⟩

theorem exists_execRstoff_eq_next (a b c : Operand) (s : State) : ∃ t : State, execRstoff a b c s = .next t := by
  unfold execRstoff
  split <;> exact ⟨_, rfl⟩

theorem exists_execRdplug_eq_next (a : Operand) (s : State) : ∃ t : State, execRdplug a s = .next t := by
  unfold execRdplug
  split <;> exact ⟨_, rfl⟩

/-- ENC is the one command that could be refused, and is not: CORE has a value for every letter of a well-formed
configuration (42_encode.md R150). -/
theorem exists_execEnc_eq_next {s : State} (hwf : s.cfg.wf = true) (a : Operand) :
    ∃ t : State, execEnc a s = .next t := by
  cases ha : symOf? a with
  | none => exact ⟨s.takeFault .letterRange (encode (.enc a)), by rw [execEnc, ha]⟩
  | some x =>
    obtain ⟨y, hy⟩ := core?_isSome hwf (stepOffsets s.cfg s.off) s.pb x
    exact ⟨_, exec_enc_of_core?_eq_some (symOf?_eq_some.mp ha) hy⟩

/-- With a well-formed configuration every command, legal operands or not, has a next state. -/
theorem exists_exec_eq_next {s : State} (hwf : s.cfg.wf = true) (i : Instr) : ∃ t : State, exec i s = .next t := by
  cases i with
  | mkrot | mkplug | rdoff => exact ⟨_, rfl⟩
  | enc a => exact exists_execEnc_eq_next hwf a
  | rstoff a b c => exact exists_execRstoff_eq_next a b c s
  | pick a p => exact exists_execPick_eq_next a p s
  | rdplug a => exact exists_execRdplug_eq_next a s

/-! ### Every event has a next state -/

theorem step_of_inbox_nil {s : State} (hwf : s.cfg.wf = true) (hf : s.faulted = false) (hin : s.inbox = []) :
    step s = .next s := by
  simp [step, advance, takeEvent, hwf, hf, hin]

theorem step_of_inbox_reset {s : State} (hwf : s.cfg.wf = true) (hf : s.faulted = false) {rest : List HostEvent}
    (hin : s.inbox = .reset :: rest) : step s = .next (s.applyReset rest) := by
  simp [step, advance, takeEvent, hwf, hf, hin]

/-- Settles O14, by the host's next event: none, a reset, or a word, which faults at decode or is a command. -/
theorem everyAcceptedCommandEnds : Obligations.EveryAcceptedCommandEnds := by
  intro s hs hf
  have hwf := hs.cfg_wf
  cases hin : s.inbox with
  | nil => exact ⟨s, step_of_inbox_nil hwf hf hin⟩
  | cons e rest =>
    cases e with
    | reset => exact ⟨_, step_of_inbox_reset hwf hf hin⟩
    | command w =>
      cases hw : decode w with
      | error c => exact ⟨_, step_of_decode_error hwf hf hin hw⟩
      | ok i =>
        rw [step_of_decode_ok hwf hf hin hw]
        exact exists_exec_eq_next (s := { s with inbox := rest }) hwf i

end Sys2Proof.Machine
end

section
/-! PROOFS. 30_encoding.md R61 to R67: words and well-formed commands correspond one to one, and a command with an
illegal operand takes the fault that its word raises. -/

namespace Sys2Proof

/-- Settles O1. -/
theorem decodeOfEncodeIsInstr : Obligations.DecodeOfEncodeIsInstr :=
  fun _ => decode_encode

/-- Settles O2: a word that passes every check holds nothing but the fields of its command. -/
theorem encodeOfDecodeIsWord : Obligations.EncodeOfDecodeIsWord :=
  fun w i => (decode_eq_ok_iff w i).mp

/-- Settles O6: each word is a literal, and the decoder computes. -/
theorem sampleWordsDecode : Obligations.SampleWordsDecode :=
  ⟨rfl, rfl, rfl, rfl, rfl, rfl, rfl, rfl, rfl, rfl, rfl, rfl, rfl, rfl, rfl, rfl, rfl, rfl, rfl⟩

/-- The fault for an operand of 26 to 31 in this command, which a command without operands never takes:
`decode_encode_of_not_wf` and `exec_of_not_wf` tie it to the decoder and to the meanings. -/
def Instr.operandCause : Instr → Cause
  | .rstoff _ _ _ => .offsetRange
  | .mkrot | .mkplug | .enc _ | .pick _ _ | .rdoff | .rdplug _ => .letterRange

namespace Machine

/-- Settles O5: a format without operands computes, and each of the others has its number as a sum of its fields. -/
theorem wordOfEachCommand : Obligations.WordOfEachCommand :=
  ⟨rfl, rfl, rfl, fun a b c => ⟨encode_enc_toNat a, encode_rdplug_toNat a, encode_rstoff_toNat a b c,
    encode_pick_none_toNat a, encode_pick_some_toNat a b⟩⟩

/-! ### Operands of 26 to 31 (30_encoding.md R63; log entry 10) -/

@[simp] theorem ok_symBits (x : Sym) : Operand.ok (symBits x) = true :=
  Operand.ok_of_toNat_eq (symBits_toNat x)

theorem wf_pick_symBits (x : Sym) (q : Option Sym) : (Instr.pick (symBits x) (q.map symBits)).wf = true := by
  cases q <;> simp [Instr.wf]

/-- A word of format L that is its `OP` and a letter above 25. -/
theorem decode_formL_of_toNat_eq {w : Cmd} {op : Nat} (hop : op = 3 ∨ op = 7) {a : Operand}
    (hw : w.toNat = 1048576 * op + a.toNat) (h : ¬ Operand.ok a = true) : decode w = .error .letterRange := by
  rw [Operand.ok_iff] at h
  exact decode_formL_of_letter_above (by omega) (by omega) (by omega)

/-- An operand above 25 is the one check that an encoded command can fail. -/
theorem decode_encode_of_not_wf {i : Instr} (h : ¬ i.wf = true) : decode (encode i) = .error i.operandCause := by
  cases i with
  | mkrot | mkplug | rdoff => exact absurd rfl h
  | enc a => exact decode_formL_of_toNat_eq (.inl rfl) (encode_enc_toNat a) h
  | rdplug a => exact decode_formL_of_toNat_eq (.inr rfl) (encode_rdplug_toNat a) h
  | rstoff a b c =>
    have hn := encode_rstoff_toNat a b c
    simp only [Instr.wf, Bool.and_eq_true, Operand.ok_iff] at h
    exact decode_of_offsetAbove (by simp only [ReservedSet]; omega) (by simp only [OffsetAbove]; omega)
  | pick a p =>
    cases p with
    | none =>
      have hn := encode_pick_none_toNat a
      simp only [Instr.wf, Operand.ok_iff] at h
      exact decode_of_letterAbove (by simp only [ReservedSet]; omega) (by simp only [LetterAbove]; omega)
    | some b =>
      have hn := encode_pick_some_toNat a b
      simp only [Instr.wf, Bool.and_eq_true, Operand.ok_iff] at h
      exact decode_of_letterAbove (by simp only [ReservedSet]; omega) (by simp only [LetterAbove]; omega)

/-- A meaning given an operand above 25 takes the fault that the decoder raises for its word (log entry 10). -/
theorem exec_of_not_wf {i : Instr} (h : ¬ i.wf = true) (s : State) :
    exec i s = .next (s.takeFault i.operandCause (encode i)) := by
  cases i with
  | mkrot | mkplug | rdoff => exact absurd rfl h
  | enc a =>
    have ha : symOf? a = none := by
      rw [symOf?_eq_none]
      simp only [Instr.wf, Operand.ok_iff] at h
      omega
    simp only [exec, execEnc, ha, Instr.operandCause]
  | rdplug a =>
    obtain ⟨t, ht⟩ := exists_execRdplug_eq_next a s
    obtain ⟨-, rfl⟩ | ⟨k, ha, -⟩ := execRdplug_next ht
    · exact ht
    · exact absurd (Operand.ok_of_toNat_eq ha) h
  | rstoff a b c =>
    obtain ⟨t, ht⟩ := exists_execRstoff_eq_next a b c s
    obtain ⟨-, rfl⟩ | ⟨o, ha, hb, hc, -⟩ := execRstoff_next ht
    · exact ht
    · simp [Instr.wf, Operand.ok_of_toNat_eq ha, Operand.ok_of_toNat_eq hb, Operand.ok_of_toNat_eq hc] at h
  | pick a p =>
    obtain ⟨t, ht⟩ := exists_execPick_eq_next a p s
    obtain ⟨-, rfl⟩ | ⟨x, q, ha, rfl, -⟩ := execPick_next ht
    · exact ht
    · exact absurd (eq_symBits ha ▸ wf_pick_symBits x q) h

/-- Settles O9, by the two kinds of command: a well-formed one is decoded back, and any other takes one fault at decode
and in its meaning. -/
theorem stepOnAnyEncodedCommand : Obligations.StepOnAnyEncodedCommand := by
  intro s i rest hwf hf
  by_cases hi : i.wf = true
  · exact step_of_decode_ok (s := { s with inbox := .command (encode i) :: rest }) hwf hf rfl (decode_encode hi)
  · rw [exec_of_not_wf hi]
    exact step_of_decode_error (s := { s with inbox := .command (encode i) :: rest }) hwf hf rfl
      (decode_encode_of_not_wf hi)

end Machine

end Sys2Proof
end
section
/-! PROOFS. The step: the command of a word, a fault at decode, a reset, nothing sent, a configuration refused
(00_scope.md R11, 60_exceptions.md R203, R204, R214, 70_reset_and_hazards.md R220). -/

namespace Sys2Proof.Machine

/-- Settles O7. -/
theorem stepRunsDecodedCommand : Obligations.StepRunsDecodedCommand :=
  fun _ _ _ _ hwf hf hin hi => step_of_decode_ok hwf hf hin hi

/-- Settles O8: it is the clause about the step in O3. -/
theorem stepTakesDecodeFault : Obligations.StepTakesDecodeFault := by
  intro s w rest c hwf hf hin hc
  obtain ⟨-, -, -, -, -, -, hstep⟩ := decodeChecksInOrder w
  exact (hstep s rest hwf hf hin).1 c hc

/-- Settles O13. -/
theorem nothingSentNothingChanges : Obligations.NothingSentNothingChanges :=
  fun _ hwf hf hin => step_of_inbox_nil hwf hf hin

/-! ### The faulted state and reset -/

theorem step_of_faulted {s : State} (hwf : s.cfg.wf = true) (hf : s.faulted = true) : step s = awaitReset s := by
  simp [step, advance, hwf, hf]

/-- A reset that is the host's next event is taken in one step, whether the block is faulted or not. -/
theorem step_of_next_reset {s : State} (hwf : s.cfg.wf = true) {rest : List HostEvent}
    (hin : s.inbox = .reset :: rest) : step s = .next (s.applyReset rest) := by
  by_cases hf : s.faulted = true
  · rw [step_of_faulted hwf hf, awaitReset, hin, afterReset]
  · exact step_of_inbox_reset hwf (by simpa using hf) hin

/-- Settles O10, by the host's next reset: there is none, or the step applies it. -/
theorem faultedBlockLeavesOnlyByReset : Obligations.FaultedBlockLeavesOnlyByReset := by
  intro s hwf hf
  rw [step_of_faulted hwf hf, awaitReset]
  cases hafter : afterReset s.inbox with
  | none => exact ⟨fun _ => rfl, fun t ht => nomatch ht⟩
  | some rest =>
    obtain ⟨offered, hin, hoffered⟩ := afterReset_eq_some hafter
    refine ⟨fun hnone => ?_, fun t ht => ⟨offered, rest, hin, hoffered, ?_⟩⟩
    · exact absurd (hafter.symm.trans (afterReset_eq_none.mpr hnone)) (by simp)
    · cases ht
      rfl

/-- Settles O11: the next state is `State.applyReset`, whose fields are the reset values. -/
theorem resetEventEffect : Obligations.ResetEventEffect := by
  intro s rest hwf hin
  exact ⟨s.applyReset rest, step_of_next_reset hwf hin, rfl, Table.rd_identity, rfl, rfl, rfl,
    s.applyReset_faulted rest⟩

/-! ### The configuration (00_scope.md R11, 10_state.md R31) -/

theorem step_of_not_wf {s : State} (h : s.cfg.wf = false) : step s = .refused .malformedConfig := by
  simp [step, advance, h]

/-- Settles O16: what is built is written as the numbers supplied. -/
theorem malformedConfigRunsNothing : Obligations.MalformedConfigRunsNothing := by
  refine ⟨fun r c h => ?_, Config.wf_iff, fun s => step_of_not_wf⟩
  obtain ⟨hwf, rfl⟩ := (RawConfig.build_eq_some_iff r c).mp h
  exact ⟨hwf, rfl, rfl, rfl⟩

theorem cfg_of_exec {i : Instr} {s t : State} (h : exec i s = .next t) : t.cfg = s.cfg := by
  obtain ⟨c, rfl⟩ | ⟨o, pb, r, rfl, -, -⟩ := exec_next h <;> rfl

/-- Settles O17, by what a step can do. -/
theorem stepKeepsConfiguration : Obligations.StepKeepsConfiguration := by
  intro s t h
  obtain ⟨-, ⟨-, -, rfl⟩ | ⟨rest, rfl, -, -⟩ | ⟨w, rest, -, -, ⟨c, -, rfl⟩ | ⟨i, -, hi⟩⟩⟩ := step_next h
  · rfl
  · rfl
  · rfl
  · exact cfg_of_exec (s := s.dropEvent) hi

end Sys2Proof.Machine
end

section
/-! PROOFS. 40_rotor_stepping.md R101, R105, R107, R108: inverse wirings, and the rotors over many steps. -/

namespace Sys2Proof.Machine

/-- Settles O19: a wiring of a well-formed configuration is a bijection. -/
theorem inverseWiringIsUnique : Obligations.InverseWiringIsUnique := by
  intro c i y hwf
  have hbij := (Config.wf_iff c).mp hwf i
  obtain ⟨j, hj⟩ := hbij.surjective y
  exact ⟨j, (winv?_eq_some hbij).mpr hj, hj, fun k hk => hbij.injective (hk.trans hj.symm)⟩

/-! ### The three cases of STEP (40_rotor_stepping.md R103) -/

section Cases

variable {c : Config} {o : Offsets}

/-- No carry: rotor 0 advances alone. -/
theorem stepOffsets_of_no_notch (h0 : o.o0 ≠ c.notchOf 0) (h1 : o.o1 ≠ c.notchOf 1) :
    stepOffsets c o = ⟨add26 o.o0 1, o.o1, o.o2⟩ := by
  simp [stepOffsets, atNotch, h0, h1]

/-- Rotor 0 at its notch, rotor 1 not at its own: rotor 0 carries rotor 1 along. -/
theorem stepOffsets_of_notch0 (h0 : o.o0 = c.notchOf 0) (h1 : o.o1 ≠ c.notchOf 1) :
    stepOffsets c o = ⟨add26 o.o0 1, add26 o.o1 1, o.o2⟩ := by
  simp [stepOffsets, atNotch, h0, h1]

/-- Rotor 1 at its notch: all three advance, wherever rotor 0 is. -/
theorem stepOffsets_of_notch1 (h1 : o.o1 = c.notchOf 1) :
    stepOffsets c o = ⟨add26 o.o0 1, add26 o.o1 1, add26 o.o2 1⟩ := by
  simp [stepOffsets, atNotch, h1]

end Cases

theorem sub26_one_ne (a : Sym) : sub26 a 1 ≠ a := by
  intro h
  exact add26_one_ne a (by rw [← h, add26_sub26, h])

/-- Settles O22: the first step puts rotor 1 on its notch, where the second finds it. -/
theorem doubleStepAnomaly : Obligations.DoubleStepAnomaly := by
  intro c o h0 h1 n m
  have hn : n = ⟨add26 o.o0 1, c.notchOf 1, o.o2⟩ := by
    have hne : o.o1 ≠ c.notchOf 1 := h1 ▸ sub26_one_ne (c.notchOf 1)
    rw [← add26_sub26 (c.notchOf 1) 1, ← h1]
    exact stepOffsets_of_notch0 h0 hne
  have hm : m = ⟨add26 n.o0 1, add26 n.o1 1, add26 n.o2 1⟩ := stepOffsets_of_notch1 (by rw [hn])
  exact ⟨by rw [hn], by rw [hn], by rw [hm, hn], by rw [hm]⟩

/-! ### Many steps -/

/-- Rotor 0 counts the steps. -/
theorem iterate_stepOffsets_o0 (c : Config) (o : Offsets) (n : Nat) :
    ((stepOffsets c)^[n] o).o0.val = (o.o0.val + n) % 26 := by
  induction n with
  | zero => exact (Nat.mod_eq_of_lt o.o0.isLt).symm
  | succ n ih =>
    rw [Function.iterate_succ_apply', stepOffsets_o0, add26_val, ih]
    omega

/-- Settles O21: rotor 0 by counting steps, rotors 1 and 2 by the cases of STEP. -/
theorem steppingConsequences : Obligations.SteppingConsequences := by
  intro c o
  refine ⟨Fin.ext ?_, fun n hpos hlt h => ?_, ?_, ?_, fun c' h0 h1 => stepOffsets_congr h0 h1 o, fun h0 => ?_,
    fun h1 => ?_⟩
  · rw [iterate_stepOffsets_o0]
    omega
  · have hval := congrArg Fin.val h
    rw [iterate_stepOffsets_o0] at hval
    omega
  · rw [stepOffsets_o1]
    exact (ite_eq_or_eq ..).symm
  · by_cases h1 : o.o1 = c.notchOf 1
    · rw [stepOffsets_of_notch1 h1]
      exact .inr ⟨rfl, rfl⟩
    · rw [stepOffsets_o2, if_neg h1]
      exact .inl rfl
  · rw [stepOffsets_o1, if_pos (.inl h0)]
  · rw [stepOffsets_of_notch1 h1]
    exact ⟨rfl, rfl⟩

/-! ### The period with the default notches (40_rotor_stepping.md R108; log entry 1) -/

/-- While rotor 0 does not meet its notch and rotor 1 is not at its own, rotor 0 advances alone. -/
theorem iterate_stepOffsets_of_no_notch {c : Config} {a b z d : Sym} {n : Nat} (hb : b ≠ c.notchOf 1)
    (ha : ∀ k < n, (a.val + k) % 26 ≠ (c.notchOf 0).val) (hd : d.val = (a.val + n) % 26) :
    (stepOffsets c)^[n] ⟨a, b, z⟩ = ⟨d, b, z⟩ := by
  induction n generalizing a with
  | zero =>
    obtain rfl : d = a := Fin.ext (by omega)
    rfl
  | succ n ih =>
    have hne : a ≠ c.notchOf 0 := fun h => ha 0 (by omega) (by rw [← h]; omega)
    have hval : (add26 a 1).val = (a.val + 1) % 26 := rfl
    rw [Function.iterate_succ_apply, stepOffsets_of_no_notch hne hb]
    refine ih (a := add26 a 1) (fun k hk => ?_) (by omega)
    have := ha (k + 1) (by omega)
    omega

theorem default_notchOf_0 : (Config.default.notchOf 0).val = 16 := rfl

/-- From offset 0, rotor 0 comes to its default notch in 16 steps, and the next carries rotor 1 along. -/
theorem iterate_default_17 {b : Sym} (hb : b ≠ 4) (z : Sym) :
    (stepOffsets Config.default)^[17] ⟨0, b, z⟩ = ⟨17, add26 b 1, z⟩ := by
  have hquiet : (stepOffsets Config.default)^[16] ⟨0, b, z⟩ = ⟨16, b, z⟩ :=
    iterate_stepOffsets_of_no_notch hb (fun k hk => by rw [default_notchOf_0]; omega) rfl
  rw [Function.iterate_succ_apply', hquiet]
  exact stepOffsets_of_notch0 rfl hb

/-- A turn of rotor 0 carries rotor 1 along once, unless that puts rotor 1 on its notch. -/
theorem iterate_default_26_single {b : Sym} (h3 : b ≠ 3) (h4 : b ≠ 4) (z : Sym) :
    (stepOffsets Config.default)^[26] ⟨0, b, z⟩ = ⟨0, add26 b 1, z⟩ := by
  have hb : add26 b 1 ≠ 4 := by revert b; decide
  rw [Function.iterate_add_apply _ 9 17, iterate_default_17 h4]
  exact iterate_stepOffsets_of_no_notch hb (fun k hk => by rw [default_notchOf_0]; omega) rfl

/-- A turn of rotor 0 that puts rotor 1 on its notch is the one with the double step: rotor 1 advances twice and rotor
2 once. -/
theorem iterate_default_26_double (z : Sym) :
    (stepOffsets Config.default)^[26] ⟨0, 3, z⟩ = ⟨0, 5, add26 z 1⟩ := by
  have hdouble : stepOffsets Config.default ⟨17, 4, z⟩ = ⟨18, 5, add26 z 1⟩ := stepOffsets_of_notch1 rfl
  have h17 : (stepOffsets Config.default)^[17] ⟨0, 3, z⟩ = ⟨17, 4, z⟩ := iterate_default_17 (by decide) z
  rw [Function.iterate_add_apply _ 8 18, Function.iterate_succ_apply' _ 17, h17, hdouble]
  exact iterate_stepOffsets_of_no_notch (by decide) (fun k hk => by rw [default_notchOf_0]; omega) rfl

/-- The offsets after `m` turns of rotor 0 from (0, 0, 0): rotor 1 has advanced once a turn, and once more for each of
the `(m + 21) / 25` double steps, which advance rotor 2. `iterate_default_turns` ties it to STEP. -/
def offsetsAfterTurns (m : Nat) : Offsets :=
  ⟨0, Fin.ofNat 26 (m + (m + 21) / 25), Fin.ofNat 26 ((m + 21) / 25)⟩

theorem iterate_default_turns (m : Nat) :
    (stepOffsets Config.default)^[26 * m] ⟨0, 0, 0⟩ = offsetsAfterTurns m := by
  induction m with
  | zero => rfl
  | succ m ih =>
    rw [Nat.mul_succ, Nat.add_comm, Function.iterate_add_apply, ih]
    simp only [offsetsAfterTurns]
    by_cases hm : m % 25 = 3
    · have h3 : Fin.ofNat 26 (m + (m + 21) / 25) = 3 := Fin.ext (by simp only [Fin.val_ofNat]; omega)
      rw [h3, iterate_default_26_double]
      simp only [Offsets.mk.injEq, Fin.ext_iff, add26_val, Fin.val_ofNat, true_and]
      omega
    · have h3 : Fin.ofNat 26 (m + (m + 21) / 25) ≠ 3 := by simp only [ne_eq, Fin.ext_iff, Fin.val_ofNat]; omega
      have h4 : Fin.ofNat 26 (m + (m + 21) / 25) ≠ 4 := by simp only [ne_eq, Fin.ext_iff, Fin.val_ofNat]; omega
      rw [iterate_default_26_single h3 h4]
      simp only [Offsets.mk.injEq, Fin.ext_iff, add26_val, Fin.val_ofNat, true_and]
      omega

/-- Settles O23: after `n` steps rotor 0 is at 0 only when `n` is a number of whole turns, and of those the first that
brings rotors 1 and 2 back is turn 650. -/
theorem defaultStepPeriod : Obligations.DefaultStepPeriod := by
  refine ⟨iterate_default_turns 650, fun n hpos hlt h => ?_⟩
  have h0 := congrArg (fun o => o.o0.val) h
  obtain ⟨m, rfl⟩ : 26 ∣ n := by
    simp only [iterate_stepOffsets_o0] at h0
    omega
  rw [iterate_default_turns, offsetsAfterTurns, Offsets.mk.injEq] at h
  obtain ⟨-, h1, h2⟩ := h
  simp only [Fin.ext_iff, Fin.val_ofNat] at h1 h2
  omega

end Sys2Proof.Machine
end

section
/-! PROOFS. 42_encode.md R151 to R155: CORE undoes itself, so a message is deciphered as it was enciphered. -/

namespace Sys2Proof.Machine

/-! ### CORE (42_encode.md R151, R152, R155) -/

/-- With an involutive plugboard CORE undoes itself, because the reflector does. -/
theorem core?_symm {c : Config} (h : c.wf = true) {o : Offsets} {pb : Table} (hpb : Involutive pb) {x y : Sym}
    (hy : core? c o pb x = some y) : core? c o pb y = some x := by
  obtain ⟨z, hz, rfl⟩ := (core?_eq_some h).mp hy
  refine (core?_eq_some h).mpr ⟨pb.rd x, ?_, hpb x⟩
  rw [hpb z, hz, reflector_involutive]

/-- CORE is the CORE of the block without plugs, between two passes through the plugboard (42_encode.md R141). -/
theorem core?_eq_map_identity (c : Config) (o : Offsets) (pb : Table) (x : Sym) :
    core? c o pb x = (core? c o Table.identity (pb.rd x)).map pb.rd := by
  simp [core?]

/-- Settles O35: an involution is a bijection. -/
theorem coreIsInvolution : Obligations.CoreIsInvolution := by
  intro c o pb hwf hpb
  choose f hf using core?_isSome hwf o pb
  have hinv : Function.Involutive f := fun x =>
    Option.some_inj.mp ((hf (f x)).symm.trans (core?_symm hwf hpb (hf x)))
  exact ⟨f, hf, hinv.bijective, hinv⟩

/-- Settles O36. -/
theorem coreHasNoFixedPoint : Obligations.CoreHasNoFixedPoint :=
  fun _ o _ x hwf hpb => core?_ne_some_self hwf o hpb x

/-- Settles O37: the plug at the entry turns each letter into the other one. -/
theorem coreThroughAPlug : Obligations.CoreThroughAPlug := by
  intro c o pb x y hwf hx hy
  obtain ⟨u, hu⟩ := core?_isSome hwf o Table.identity y
  obtain ⟨v, hv⟩ := core?_isSome hwf o Table.identity x
  refine ⟨u, v, hu, ?_, hv, ?_⟩
  · rw [core?_eq_map_identity, hx, hu, Option.map_some]
  · rw [core?_eq_map_identity, hy, hv, Option.map_some]

/-! ### Commands that respond, one after another -/

/-- A command that responds, and then commands that do: the converse of `transcript_cons_eq_some`. -/
theorem transcript_cons_of_exec {i : Instr} {is : List Instr} {s t u : State} {r : Rsp} {rs : List Rsp}
    (h : exec i s = .next t) (hr : t.rsp = some r) (his : transcript is t = some (rs, u)) :
    transcript (i :: is) s = some (r :: rs, u) := by
  simp only [transcript, h, hr, his]

/-- RSTOFF to the offsets `o` rewinds the rotors and responds 0 (40_rotor_stepping.md R111). -/
theorem exec_rstoff_symBits (o : Offsets) (s : State) :
    exec (.rstoff (symBits o.o0) (symBits o.o1) (symBits o.o2)) s = .next { s with off := o, rsp := some 0 } :=
  execRstoff_of_toNat_eq (symBits_toNat _) (symBits_toNat _) (symBits_toNat _) s

/-- ENC of a letter code. -/
theorem exec_enc_symBits {s : State} {x y : Sym} (h : core? s.cfg (stepOffsets s.cfg s.off) s.pb x = some y) :
    exec (.enc (symBits x)) s = .next { s with off := stepOffsets s.cfg s.off, rsp := some (rspLetter y) } :=
  exec_enc_of_core?_eq_some (symBits_toNat x) h

/-- Settles O39: both ENC use the offsets one step from the start, so the second undoes the first. -/
theorem encIsReciprocalAfterRewind : Obligations.EncIsReciprocalAfterRewind := by
  intro s x hwf hpb
  obtain ⟨y, hy⟩ := core?_isSome hwf (stepOffsets s.cfg s.off) s.pb x
  refine ⟨y, _, transcript_cons_of_exec (exec_enc_symBits hy) rfl (transcript_cons_of_exec
    (exec_rstoff_symBits s.off _) rfl (transcript_cons_of_exec (exec_enc_symBits ?_) rfl rfl)), rfl, rfl⟩
  exact core?_symm hwf hpb hy

/-! ### Messages (42_encode.md R153) -/

/-- Encoded letter by letter from the offsets `o`, which step before each letter, the first message gives the second:
`transcript_encMessage` ties it to ENC. -/
def Enciphers (c : Config) (pb : Table) : Offsets → List Sym → List Sym → Prop
  | _, [], [] => True
  | o, x :: xs, y :: ys => core? c (stepOffsets c o) pb x = some y ∧ Enciphers c pb (stepOffsets c o) xs ys
  | _, [], _ :: _ | _, _ :: _, [] => False

section Messages

variable {c : Config} {pb : Table}

theorem exists_enciphers (hwf : c.wf = true) (o : Offsets) (xs : List Sym) :
    ∃ ys, ys.length = xs.length ∧ Enciphers c pb o xs ys := by
  induction xs generalizing o with
  | nil => exact ⟨[], rfl, trivial⟩
  | cons x xs ih =>
    obtain ⟨y, hy⟩ := core?_isSome hwf (stepOffsets c o) pb x
    obtain ⟨ys, hlen, hys⟩ := ih (stepOffsets c o)
    exact ⟨y :: ys, congrArg (· + 1) hlen, hy, hys⟩

/-- Enciphering a ciphertext from the offsets it was made with gives the message back. -/
theorem Enciphers.symm (hwf : c.wf = true) (hpb : Involutive pb) {o : Offsets} {xs ys : List Sym}
    (h : Enciphers c pb o xs ys) : Enciphers c pb o ys xs := by
  induction xs generalizing o ys with
  | nil =>
    cases ys with
    | nil => exact h
    | cons y ys => exact h.elim
  | cons x xs ih =>
    cases ys with
    | nil => exact h.elim
    | cons y ys => exact ⟨core?_symm hwf hpb h.1, ih h.2⟩

end Messages

/-- The ENC commands of a message present what it is enciphered to, and keep configuration and plugboard. -/
theorem transcript_encMessage {s : State} {xs ys : List Sym} (h : Enciphers s.cfg s.pb s.off xs ys) :
    ∃ t : State, transcript (encMessage xs) s = some (ys.map rspLetter, t) ∧ t.cfg = s.cfg ∧ t.pb = s.pb := by
  induction xs generalizing s ys with
  | nil =>
    cases ys with
    | nil => exact ⟨s, rfl, rfl, rfl⟩
    | cons y ys => exact h.elim
  | cons x xs ih =>
    cases ys with
    | nil => exact h.elim
    | cons y ys =>
      obtain ⟨hy, hys⟩ := h
      obtain ⟨t, ht, hcfg, hpb⟩ :=
        ih (s := { s with off := stepOffsets s.cfg s.off, rsp := some (rspLetter y) }) hys
      exact ⟨t, transcript_cons_of_exec (exec_enc_symBits hy) rfl ht, hcfg, hpb⟩

/-- Settles O40: the ciphertext is enciphered from the offsets that RSTOFF brings back. -/
theorem messageReciprocity : Obligations.MessageReciprocity := by
  intro s xs hwf hpb
  obtain ⟨ys, hlen, hys⟩ := exists_enciphers (pb := s.pb) hwf s.off xs
  obtain ⟨t, ht, hcfg, htpb⟩ := transcript_encMessage hys
  have hback : Enciphers t.cfg t.pb s.off ys xs := by
    rw [hcfg, htpb]
    exact hys.symm hwf hpb
  obtain ⟨u, hu, -, -⟩ := transcript_encMessage (s := { t with off := s.off, rsp := some 0 }) hback
  exact ⟨ys, t, hlen, ht, u, transcript_cons_of_exec (exec_rstoff_symBits s.off t) rfl hu⟩

end Sys2Proof.Machine
end

section
/-! PROOFS. 41_plugboard.md R124, 30_encoding.md R74: commands on the plugboard, one or two at a time. -/

namespace Sys2Proof.Machine

theorem identity_involutive : Involutive Table.identity := fun k => by
  rw [Table.rd_identity, Table.rd_identity]

/-- Settles O31: a command writes the plugboard with the identity, or with the result of a pick, or not at all. -/
theorem commandsKeepInvolution : Obligations.CommandsKeepInvolution := by
  intro i s t hs h
  obtain ⟨c, rfl⟩ | ⟨o, pb, r, rfl, -, rfl | ⟨-, rfl⟩ | ⟨a, p, x, q, sel, -, hpick⟩⟩ := exec_next h
  · exact hs
  · exact hs
  · exact identity_involutive
  · exact pickStep_involutive hs hpick

/-- A pick of letter codes that does not fault. -/
theorem exec_pick_symBits {s : State} {x : Sym} {q : Option Sym} {t : Table} {sel : Option Sym}
    (h : pickStep s.cfg.teardownWhilePending s.pb x q = .ok (t, sel)) :
    exec (.pick (symBits x) (q.map symBits)) s = .next { s with pb := t, rsp := some (rspSelection sel) } :=
  exec_pick_of_ok (symBits_toNat x) rfl h

/-- Settles O33: `PLUG` is case 1 of R122 and then case 3, and `UNPLUG` is case 2. -/
theorem plugAndUnplugPseudos : Obligations.PlugAndUnplugPseudos := by
  intro s x y hne
  refine ⟨fun hx hy => ?_, fun hxy => ?_⟩
  · have hfirst := exec_pick_symBits (s := s) (pickStep_none_of_unplugged hx)
    have hsecond := exec_pick_symBits (s := { s with rsp := some (rspSelection (some x)) })
      (pickStep_of_both_unplugged hx hne.symm hy)
    exact ⟨_, _, transcript_cons_of_exec hfirst rfl (transcript_cons_of_exec hsecond rfl rfl),
      rspSelection_some_toNat x, rfl, rd_connect s.pb hne.symm⟩
  · have hpick := exec_pick_symBits (s := s) (pickStep_none_of_plugged (by rw [hxy]; exact hne.symm))
    exact ⟨_, transcript_cons_of_exec hpick rfl rfl, rfl, fun k => by rw [← hxy]; exact rd_tearDown s.pb x k⟩

end Sys2Proof.Machine
end

section
/-! PROOFS. 10_state.md R22 to R37, 20_memory.md R47: what a command reads, and what it leaves as it was. -/

namespace Sys2Proof.Machine

/-! ### What a command writes -/

/-- Settles O41. -/
theorem onlyThreeCommandsWriteOffsets : Obligations.OnlyThreeCommandsWriteOffsets := by
  intro i s t h henc hmkrot hrstoff
  obtain ⟨c, rfl⟩ | ⟨o, pb, r, rfl, rfl | ⟨a, rfl⟩ | rfl | ⟨a, b, c, rfl⟩, -⟩ := exec_next h
  · rfl
  · rfl
  · exact absurd rfl (henc a)
  · exact absurd rfl hmkrot
  · exact absurd rfl (hrstoff a b c)

/-- Settles O42. -/
theorem onlyTwoCommandsWritePlugboard : Obligations.OnlyTwoCommandsWritePlugboard := by
  intro i s t h hmkplug hpick k
  obtain ⟨c, rfl⟩ | ⟨o, pb, r, rfl, -, rfl | ⟨rfl, -⟩ | ⟨a, p, x, q, sel, rfl, -⟩⟩ := exec_next h
  · rfl
  · rfl
  · exact absurd rfl hmkplug
  · exact absurd rfl (hpick a p)

/-- Settles O43: of what a step can do, fault entry and reset are all that write `STATUS`. -/
theorem statusWrittenOnlyByFaultAndReset : Obligations.StatusWrittenOnlyByFaultAndReset := by
  intro s t h hne
  obtain ⟨-, ⟨-, -, rfl⟩ | ⟨rest, rfl, hreset, -⟩ | ⟨w, rest, hf, hin, ⟨c, -, rfl⟩ | ⟨i, hdec, hi⟩⟩⟩ := step_next h
  · exact absurd rfl hne
  · exact .inr ⟨rfl, hreset⟩
  · exact .inl ⟨hf, State.takeFault_faulted _ c w, rfl, rfl, w, rest, hin, statusFcmd_faultStatus c w⟩
  · obtain ⟨-, rfl⟩ := (decode_eq_ok_iff w i).mp hdec
    obtain ⟨c, rfl⟩ | ⟨o, pb, r, rfl, -, -⟩ := exec_next hi
    · exact .inl ⟨hf, State.takeFault_faulted _ c _, rfl, rfl, _, rest, hin, statusFcmd_faultStatus c _⟩
    · exact absurd rfl hne

/-- Settles O44, field by field of the number that fault entry writes. -/
theorem faultStatusFields : Obligations.FaultStatusFields := by
  intro c w
  refine ⟨statusFlt_faultStatus c w, ?_, ?_, statusFcmd_faultStatus c w⟩
  · apply BitVec.eq_of_toNat_eq
    rw [BitVec.extractLsb'_toNat, faultStatus_toNat, Nat.shiftRight_eq_div_pow]
    change _ = 0
    omega
  · rw [statusCause_faultStatus]
    cases c <;> rfl

/-! ### What a command reads -/

/-- The two blocks agree in all that a command reads: the configuration but for `NOTCH[2]`, the offsets and the
plugboard. `exec_of_sameInputs` ties it to the commands. -/
structure SameInputs (s s' : State) : Prop where
  wiring : s'.cfg.wiring = s.cfg.wiring
  notch0 : s'.cfg.notchOf 0 = s.cfg.notchOf 0
  notch1 : s'.cfg.notchOf 1 = s.cfg.notchOf 1
  teardown : s'.cfg.teardownWhilePending = s.cfg.teardownWhilePending
  off : s'.off = s.off
  pb : s'.pb = s.pb

/-- CORE reads no more of a configuration than its wirings. -/
theorem core?_congr {c c' : Config} (h : c'.wiring = c.wiring) (o : Offsets) (pb : Table) (x : Sym) :
    core? c' o pb x = core? c o pb x := by
  have hw : ∀ i, c'.w i = c.w i := fun i => by rw [Config.w, h, Config.w]
  simp only [core?, backwardPass?, backward?, winv?, forwardPass, forward, hw]

theorem not_ok_of_le {a : Operand} (h : 26 ≤ a.toNat) : ¬ Operand.ok a = true := by
  rw [Operand.ok_iff]
  omega

theorem not_wf_pick {a : Operand} {p : Option Operand} (h : 26 ≤ a.toNat ∨ ∃ b, p = some b ∧ 26 ≤ b.toNat) :
    ¬ (Instr.pick a p).wf = true := by
  obtain ha | ⟨b, rfl, hb⟩ := h
  · cases p <;> simp [Instr.wf, not_ok_of_le ha]
  · simp [Instr.wf, not_ok_of_le hb]

/-- Two blocks that agree in what a command reads take the same fault or make the same writes. -/
theorem exec_of_sameInputs {i : Instr} {s s' t : State} (h : SameInputs s s') (e : exec i s = .next t) :
    (∃ c w, t = s.takeFault c w ∧ exec i s' = .next (s'.takeFault c w)) ∨
    ∃ o pb r, t = ((s.setOff o).setPb pb).respond r ∧
      exec i s' = .next (((s'.setOff o).setPb pb).respond r) := by
  by_cases hi : i.wf = true
  swap
  · cases (exec_of_not_wf hi s).symm.trans e
    exact .inl ⟨_, _, rfl, exec_of_not_wf hi s'⟩
  cases i with
  | mkrot =>
    cases e
    exact .inr ⟨⟨0, 0, 0⟩, s.pb, rspNone, rfl, by rw [← h.pb]; rfl⟩
  | mkplug =>
    cases e
    exact .inr ⟨s.off, Table.identity, rspNone, rfl, by rw [← h.off]; rfl⟩
  | rdoff =>
    cases e
    exact .inr ⟨s.off, s.pb, rspOffsets s.off, rfl, by rw [← h.off, ← h.pb]; rfl⟩
  | enc a =>
    obtain ⟨ha, -⟩ | ⟨x, y, ha, hy, rfl⟩ := execEnc_next e
    · exact absurd hi (not_ok_of_le ha)
    · have hstep : stepOffsets s'.cfg s'.off = stepOffsets s.cfg s.off := by
        rw [h.off, stepOffsets_congr h.notch0 h.notch1]
      have hy' : core? s'.cfg (stepOffsets s'.cfg s'.off) s'.pb x = some y := by
        rw [hstep, h.pb, core?_congr h.wiring, hy]
      refine .inr ⟨stepOffsets s.cfg s.off, s.pb, rspLetter y, rfl, ?_⟩
      rw [exec_enc_of_core?_eq_some ha hy', hstep, ← h.pb]
      rfl
  | rstoff a b c =>
    obtain ⟨habc, -⟩ | ⟨o, ha, hb, hc, rfl⟩ := execRstoff_next e
    · simp only [Instr.wf, Bool.and_eq_true, Operand.ok_iff] at hi
      omega
    · refine .inr ⟨o, s.pb, rspNone, rfl, ?_⟩
      rw [← h.pb]
      exact execRstoff_of_toNat_eq ha hb hc s'
  | rdplug a =>
    obtain ⟨ha, -⟩ | ⟨k, ha, rfl⟩ := execRdplug_next e
    · exact absurd hi (not_ok_of_le ha)
    · refine .inr ⟨s.off, s.pb, rspLetter (s.pb.rd k), rfl, ?_⟩
      rw [← h.off, ← h.pb]
      exact execRdplug_of_toNat_eq ha s'
  | pick a p =>
    obtain ⟨hap, -⟩ | ⟨x, q, ha, hp, hpick⟩ := execPick_next e
    · exact absurd hi (not_wf_pick hap)
    · rw [← h.teardown, ← h.pb] at hpick
      obtain ⟨c, hc, rfl⟩ | ⟨pb, sel, hok, rfl⟩ := hpick
      · exact .inl ⟨c, _, rfl, exec_pick_of_error ha hp hc⟩
      · refine .inr ⟨s.off, pb, rspSelection sel, rfl, ?_⟩
        rw [exec_pick_of_ok ha hp hok, ← h.off]
        rfl

/-- Settles O24: a third notch is no input of any command. -/
theorem thirdNotchIsUnread : Obligations.ThirdNotchIsUnread := by
  intro s n i t h
  have hsame : SameInputs s { s with cfg := { s.cfg with notch := s.cfg.notch.set 2 n } } :=
    ⟨rfl, by simp [Config.notchOf], by simp [Config.notchOf], rfl, rfl, rfl⟩
  obtain ⟨c, w, rfl, h'⟩ | ⟨o, pb, r, rfl, h'⟩ := exec_of_sameInputs hsame h
  · exact h'
  · exact h'

/-- Settles O50: `STATUS`, the response port and the host's events are no input of any command. -/
theorem noHiddenState : Obligations.NoHiddenState := by
  intro i s s' t hcfg hoff hpb h
  have hsame : SameInputs s s' := ⟨by rw [hcfg], by rw [hcfg], by rw [hcfg], by rw [hcfg], hoff, hpb⟩
  obtain ⟨c, w, rfl, h'⟩ | ⟨o, pb, r, rfl, h'⟩ := exec_of_sameInputs hsame h
  · exact ⟨_, h', hoff, hpb, rfl, rfl, rfl⟩
  · exact ⟨_, h', rfl, rfl, rfl, rfl, rfl⟩

/-! ### Commands repeated (20_memory.md R47) -/

theorem exec_rstoff_twice {a b c : Operand} {s t : State} (h : exec (.rstoff a b c) s = .next t) :
    exec (.rstoff a b c) t = .next t := by
  by_cases hi : (Instr.rstoff a b c).wf = true
  · obtain ⟨habc, -⟩ | ⟨o, ha, hb, hc, rfl⟩ := execRstoff_next h
    · simp only [Instr.wf, Bool.and_eq_true, Operand.ok_iff] at hi
      omega
    · exact execRstoff_of_toNat_eq ha hb hc _
  · cases (exec_of_not_wf hi s).symm.trans h
    exact exec_of_not_wf hi _

/-- Settles O47: a read and a write of fixed values find what they left; ENC moves rotor 0; and PICK of `b` with `a`
pending makes a pair the first time and, `a` being plugged then, faults the second time. -/
theorem idempotentCommands : Obligations.IdempotentCommands := by
  refine ⟨fun s t h => ?_, fun a s t ha h => ?_, fun s t h => ?_, fun s t h => ?_, fun a b c s t => exec_rstoff_twice,
    fun a s t ha h => ?_, 1, some 0, State.reset, _, _, rfl, rfl, by decide⟩
  · cases h
    exact ⟨rfl, rfl⟩
  · obtain ⟨hge, -⟩ | ⟨k, hk, rfl⟩ := execRdplug_next h
    · omega
    · exact ⟨execRdplug_of_toNat_eq hk _, rfl⟩
  · cases h
    rfl
  · cases h
    rfl
  · obtain ⟨hge, -⟩ | ⟨x, y, -, -, rfl⟩ := execEnc_next h
    · omega
    · exact add26_one_ne s.off.o0

end Sys2Proof.Machine
end

section
/-! PROOFS. 10_state.md R28, R35: legal states, the invariant of every run. -/

namespace Sys2Proof.Machine

theorem powerOn_legal {c : Config} (h : c.wf = true) : (State.powerOn c).Legal :=
  ⟨h, identity_involutive, .inl rfl⟩

theorem powerOn_not_faulted (c : Config) : (State.powerOn c).faulted = false := by
  simp [State.faulted, statusFlt]

/-- Settles O51: the default wirings are bijections, which is checked entry by entry. -/
theorem powerOnIsLegal : Obligations.PowerOnIsLegal := by
  have hdefault : Config.default.wf = true := by decide
  exact ⟨powerOn_legal hdefault, fun _ => powerOn_legal⟩

theorem involutive_of_step {s t : State} (hs : Involutive s.pb) (h : step s = .next t) : Involutive t.pb := by
  obtain ⟨-, ⟨-, -, rfl⟩ | ⟨rest, rfl, -, -⟩ | ⟨w, rest, -, -, ⟨c, -, rfl⟩ | ⟨i, -, hi⟩⟩⟩ := step_next h
  · exact hs
  · exact identity_involutive
  · exact hs
  · exact commandsKeepInvolution i s.dropEvent t hs hi

theorem status_eq_of_exec_of_not_faulted {i : Instr} {s t : State} (h : exec i s = .next t)
    (ht : t.faulted = false) : t.status = s.status := by
  obtain ⟨c, rfl⟩ | ⟨o, pb, r, rfl, -, -⟩ := exec_next h
  · simp at ht
  · rfl

/-- A word leaves the record of a fault that it raises, or `STATUS` as it was (10_state.md R35). -/
theorem statusLegal_of_step {s t : State} (hs : statusLegal s.status) (h : step s = .next t) :
    statusLegal t.status := by
  obtain ⟨-, ⟨-, -, rfl⟩ | ⟨rest, rfl, -, -⟩ | ⟨w, rest, hf, -, ⟨c, hc, rfl⟩ | ⟨i, -, hi⟩⟩⟩ := step_next h
  · exact hs
  · exact .inl rfl
  · exact .inr ⟨c, w, .inl hc, rfl⟩
  · cases ht : t.faulted with
    | false =>
      rw [status_eq_of_exec_of_not_faulted hi ht]
      exact hs
    | true =>
      obtain ⟨w', rest', c, -, hraises, rfl⟩ := faultsArePrecise s t hf h ht
      exact .inr ⟨c, w', hraises, rfl⟩

/-- Settles O52, one part of the invariant after the other. -/
theorem stepKeepsStateLegal : Obligations.StepKeepsStateLegal := by
  intro s t hs h
  refine ⟨?_, involutive_of_step hs.pb_involutive h, statusLegal_of_step hs.status_legal h⟩
  rw [stepKeepsConfiguration s t h]
  exact hs.cfg_wf

/-- What every step keeps, a run keeps. -/
theorem run_induction {P : State → Prop} (hstep : ∀ s t, P s → step s = .next t → P t) {n : Nat} {s t : State}
    (hs : P s) (h : Host.Core.run Sys2Proof.core n s = .next t) : P t := by
  induction n generalizing s with
  | zero => cases h; exact hs
  | succ n ih =>
    simp only [Host.Core.run] at h
    split at h
    · next u hu => exact ih (hstep s u hs hu) h
    · cases h
    · cases h

/-- Settles O53: the plugboard is an involution at power-on, and every step keeps it one. -/
theorem reachablePlugboardIsInvolution : Obligations.ReachablePlugboardIsInvolution := by
  intro c events n t _ h
  exact run_induction (P := fun s => Involutive s.pb) (fun _ _ => involutive_of_step) identity_involutive h

/-- In a legal block that is not faulted, `STATUS` is 0: a record of a fault has `FLT` set. -/
theorem status_eq_zero {s : State} (hs : s.Legal) (hf : s.faulted = false) : s.status = 0 := by
  obtain h | ⟨c, w, -, h⟩ := hs.status_legal
  · exact h
  · rw [State.faulted, h, statusFlt_faultStatus] at hf
    cases hf

/-- Settles O49: MKROT and MKPLUG write offsets and plugboard, and `STATUS` is 0 before and after. -/
theorem initIsSoftwareReset : Obligations.InitIsSoftwareReset := by
  intro s hs hf
  have hstatus := status_eq_zero hs hf
  exact ⟨_, rfl, rfl, rfl, hstatus⟩

end Sys2Proof.Machine
end

section
/-! PROOFS. 41_plugboard.md R125, 60_exceptions.md R206: a host that passes back PICK's own selection never sees a
fault. -/

namespace Sys2Proof.Machine

/-! ### The selection of a pick -/

/-- The host reads back the selection that PICK presents (30_encoding.md R70). -/
theorem selectionOf_rspSelection (sel : Option Sym) : selectionOf (rspSelection sel) = sel := by
  cases sel with
  | none => rfl
  | some l => revert l; decide

section Pick

variable {td : Bool} {pb : Table} {a : Sym} {q : Option Sym}

/-- A pick whose pending letter is unplugged, or that has none, does not fault. -/
theorem exists_pickStep_eq_ok (hq : ∀ c, q = some c → pb.rd c = c) :
    ∃ t sel, pickStep td pb a q = .ok (t, sel) := by
  cases h : pickStep td pb a q with
  | ok r => exact ⟨r.1, r.2, rfl⟩
  | error e =>
    obtain ⟨-, c, hc, hplugged⟩ := pickStep_error h
    exact absurd (hq c hc) hplugged

theorem rd_tearDown_of_unplugged {c : Sym} (hc : pb.rd c = c) : (tearDown pb a).rd c = c := by
  rw [rd_tearDown, hc, ite_self]

/-- The letter that a pick leaves pending is unplugged after it (41_plugboard.md R125). -/
theorem pickStep_selection_unplugged {t : Table} {c : Sym} (h : pickStep td pb a q = .ok (t, some c)) :
    t.rd c = c := by
  cases q with
  | none =>
    by_cases ha : pb.rd a = a
    · cases (pickStep_none_of_unplugged ha).symm.trans h
      exact ha
    · cases (pickStep_none_of_plugged ha).symm.trans h
  | some b =>
    by_cases hb : pb.rd b = b
    · by_cases ha : pb.rd a = a
      · by_cases hne : a = b
        · subst hne
          cases (pickStep_pending_self hb).symm.trans h
          exact hb
        · cases (pickStep_of_both_unplugged hb hne ha).symm.trans h
      · cases (pickStep_of_plugged_while_pending hb ha).symm.trans h
        split
        · exact rd_tearDown_of_unplugged hb
        · exact hb
    · cases (pickStep_of_pending_plugged hb).symm.trans h

end Pick

/-! ### One act -/

/-- Every command but PICK leaves an unplugged letter unplugged. -/
theorem unplugged_of_exec {i : Instr} {s t : State} (h : exec i s = .next t) (hi : ∀ a p, i ≠ .pick a p) {c : Sym}
    (hc : s.pb.rd c = c) : t.pb.rd c = c := by
  obtain ⟨e, rfl⟩ | ⟨o, pb, r, rfl, -, rfl | ⟨-, rfl⟩ | ⟨a, p, x, q, sel, rfl, -⟩⟩ := exec_next h
  · exact hc
  · exact hc
  · exact Table.rd_identity c
  · exact absurd rfl (hi a p)

section Act

variable {h : Session} {a : HostAct}

/-- An act is a step on its event; it keeps the session in good order when the step leads to an unfaulted block in
which the host's new selection is unplugged. -/
theorem act_ok_of_step (hok : h.Ok) {t : State} (hstep : step (h.block.offer (a.event h.sel)) = .next t)
    (hf : t.faulted = false) (hsel : ∀ c, a.selAfter h.sel t.rsp = some c → t.pb.rd c = c) :
    ∃ h' : Session, h.act a = .next h' ∧ h'.Ok := by
  have hoffer : (h.block.offer (a.event h.sel)).Legal :=
    ⟨hok.legal.cfg_wf, hok.legal.pb_involutive, hok.legal.status_legal⟩
  refine ⟨⟨t, a.selAfter h.sel t.rsp⟩, ?_, stepKeepsStateLegal _ t hoffer hstep, hf, hsel⟩
  rw [Session.act, hstep]

/-- A step on the word of an act's command runs that command in the block. -/
theorem step_offer_event (hok : h.Ok) {i : Instr} (he : a.event h.sel = .command (encode i)) :
    step (h.block.offer (a.event h.sel)) = exec i h.block := by
  rw [he]
  exact stepOnAnyEncodedCommand h.block i h.block.inbox hok.legal.cfg_wf hok.not_faulted

/-- An act whose command is not PICK leaves the host its selection, and the selected letter unplugged. -/
theorem act_ok_of_command (hok : h.Ok) {i : Instr} (he : a.event h.sel = .command (encode i)) (hwf : i.wf = true)
    (hi : ∀ x p, i ≠ .pick x p) (hsel : ∀ r, a.selAfter h.sel r = h.sel) :
    ∃ h' : Session, h.act a = .next h' ∧ h'.Ok := by
  obtain ⟨t, ht⟩ := exists_exec_eq_next hok.legal.cfg_wf i
  refine act_ok_of_step hok ((step_offer_event hok he).trans ht) ?_ fun c hc => ?_
  · obtain hsame | ⟨⟨x, b, hpick⟩, -⟩ := faulted_eq_or_plugState_of_exec hwf ht
    · exact hsame.trans hok.not_faulted
    · exact absurd hpick (hi x (some b))
  · rw [hsel] at hc
    exact unplugged_of_exec ht hi (hok.sel_unplugged c hc)

/-- A pick with the selection held does not fault, and what it selects is unplugged. -/
theorem act_ok_of_pick (hok : h.Ok) (x : Sym) : ∃ h' : Session, h.act (.pick x) = .next h' ∧ h'.Ok := by
  obtain ⟨t, sel, hpick⟩ :=
    exists_pickStep_eq_ok (td := h.block.cfg.teardownWhilePending) (a := x) hok.sel_unplugged
  refine act_ok_of_step hok ((step_offer_event hok rfl).trans (exec_pick_symBits hpick)) hok.not_faulted
    fun c hc => ?_
  have hsel : sel = some c := (selectionOf_rspSelection sel).symm.trans hc
  rw [hsel] at hpick
  exact pickStep_selection_unplugged hpick

theorem act_ok_of_reset (hok : h.Ok) : ∃ h' : Session, h.act .reset = .next h' ∧ h'.Ok :=
  act_ok_of_step hok (step_of_next_reset (s := h.block.offer .reset) hok.legal.cfg_wf rfl)
    (State.applyReset_faulted _ _) fun _ hc => nomatch hc

end Act

/-- Settles O54, act by act. -/
theorem passedBackSelectionStaysUnplugged : Obligations.PassedBackSelectionStaysUnplugged := by
  intro h a hok
  cases a with
  | reset => exact act_ok_of_reset hok
  | pick x => exact act_ok_of_pick hok x
  | mkrot | mkplug | rdoff | enc x | rdplug k | rstoff o0 o1 o2 =>
    exact act_ok_of_command hok rfl (by simp [Instr.wf]) (by simp) fun _ => rfl

/-! ### Acts one after another -/

/-- A session in good order stays so through any acts. -/
theorem run_ok (acts : List HostAct) {h : Session} (hok : h.Ok) :
    ∃ h' : Session, h.run acts = .next h' ∧ h'.Ok := by
  induction acts generalizing h with
  | nil => exact ⟨h, rfl, hok⟩
  | cons a acts ih =>
    obtain ⟨h', hact, hok'⟩ := passedBackSelectionStaysUnplugged h a hok
    rw [Session.run, hact]
    exact ih hok'

/-- Settles O55: power-on with nothing selected is in good order, and good order means `STATUS` 0. -/
theorem wellBehavedHostNeverFaults : Obligations.WellBehavedHostNeverFaults := by
  intro c acts hwf
  have hok : Session.Ok ⟨State.powerOn c, none⟩ := ⟨powerOn_legal hwf, powerOn_not_faulted c, fun _ hc => nomatch hc⟩
  obtain ⟨h, hrun, hok'⟩ := run_ok acts hok
  exact ⟨h, hrun, hok'.not_faulted, status_eq_zero hok'.legal hok'.not_faulted⟩

end Sys2Proof.Machine
end

section
/-! PROOFS. 30_encoding.md R72 to R74: the assembler emits well-formed commands only. -/

namespace Sys2Proof.Machine

/-- What a reader makes of a list, it makes of the elements. -/
theorem exists_of_mem_mapM {α β : Type} {f : α → Option β} {l : List α} {m : List β} (h : l.mapM f = some m) {b : β}
    (hb : b ∈ m) : ∃ a ∈ l, f a = some b := by
  induction l generalizing m with
  | nil =>
    cases h
    cases hb
  | cons a l ih =>
    simp only [List.mapM_cons, Option.bind_eq_bind, Option.pure_def, Option.bind_eq_some_iff, Option.some.injEq] at h
    obtain ⟨b', hb', m', hm', rfl⟩ := h
    obtain rfl | hb := List.mem_cons.mp hb
    · exact ⟨a, List.mem_cons_self, hb'⟩
    · obtain ⟨a', ha', hf⟩ := ih hm' hb
      exact ⟨a', List.mem_cons_of_mem a ha', hf⟩

/-- The operands of a line are letter codes, so its commands are well formed (30_encoding.md R73). -/
theorem wf_of_mem_expand {line : AsmLine} {i : Instr} (h : i ∈ line.expand) : i.wf = true := by
  cases line with
  | mkrot | mkplug | rdoff | enc x | rdplug k | rstoff o0 o1 o2 | rewind o0 o1 o2 =>
    obtain rfl := List.mem_singleton.mp h
    simp [Instr.wf]
  | pick x q =>
    obtain rfl := List.mem_singleton.mp h
    exact wf_pick_symBits x q
  | unplug x =>
    obtain rfl := List.mem_singleton.mp h
    exact wf_pick_symBits x none
  | init =>
    obtain rfl | rfl := List.mem_pair.mp h <;> rfl
  | plug x y =>
    obtain rfl | rfl := List.mem_pair.mp h
    · exact wf_pick_symBits x none
    · exact wf_pick_symBits y (some x)
  | encs xs =>
    obtain ⟨x, -, rfl⟩ := List.mem_map.mp h
    exact ok_symBits x

/-- A line of text gives no command, or those of what it says. -/
theorem assembleLine_eq_some {l : List Char} {is : List Instr} (h : assembleLine l = some is) :
    is = [] ∨ ∃ line : AsmLine, is = line.expand := by
  unfold assembleLine at h
  split at h
  · cases h
    exact .inl rfl
  · obtain ⟨line, -, rfl⟩ := Option.map_eq_some_iff.mp h
    exact .inr ⟨line, rfl⟩

theorem wf_of_mem_assembleInstrs {text : List Char} {is : List Instr} (h : assembleInstrs text = some is) {i : Instr}
    (hi : i ∈ is) : i.wf = true := by
  obtain ⟨iss, hiss, rfl⟩ := Option.map_eq_some_iff.mp h
  obtain ⟨js, hjs, hi⟩ := List.mem_flatten.mp hi
  obtain ⟨l, -, hl⟩ := exists_of_mem_mapM hiss hjs
  obtain rfl | ⟨line, rfl⟩ := assembleLine_eq_some hl
  · cases hi
  · exact wf_of_mem_expand hi

/-- Settles O56: an emitted word is the encoding of a well-formed command. -/
theorem assemblerEmitsOnlyLegalWords : Obligations.AssemblerEmitsOnlyLegalWords := by
  intro text ws h w hw
  obtain ⟨is, his, rfl⟩ := Option.map_eq_some_iff.mp h
  obtain ⟨i, hi, rfl⟩ := List.mem_map.mp hw
  exact ⟨i, decode_encode (wf_of_mem_assembleInstrs his hi)⟩

end Sys2Proof.Machine
end
